-- ==== Sys2Proof/Word.lean ====
section
/-! DEFINITION. The word types of the block's boundary and storage: the 16-bit event word (30_encoding.md R60) and the
8-bit byte of the frame buffer (10_state.md R20). Times are plain `Nat`, unbounded natural numbers of ticks (10_state.md R23),
and so are counts. -/

namespace Sys2Proof

/-- One event word, 16 bits (30_encoding.md R60, R69). -/
abbrev Word := BitVec 16

/-- One byte of `FRAME_BYTES` (10_state.md R20). -/
abbrev Byte := BitVec 8

end Sys2Proof
end

