-- ==== Sys2Proof/Syntax.lean ====
section
/-! DEFINITION. The events (30_encoding.md R66), one constructor per row of spec/opcode_table.json. -/

namespace Sys2Proof

/-- The events of the block (30_encoding.md R66). DECODE's operands are on ports, not in the word (30_encoding.md R63), so
its constructor carries none. -/
inductive Instr where
  /-- EDGE0: a falling edge on the line that carries 0 bits (40_edge_sink.md R82). -/
  | edge0
  /-- EDGE1: a falling edge on the line that carries 1 bits (40_edge_sink.md R83). -/
  | edge1
  /-- POLL (41_frame_reader.md R101). -/
  | poll
  /-- TAKE with its one immediate, `maxBytes`, 0 to 255 (41_frame_reader.md R102, 30_encoding.md R65). -/
  | take (maxBytes : BitVec 8)
  /-- RESET (41_frame_reader.md R107). -/
  | reset
  /-- DECODE (42_field_decoder.md R132). -/
  | decode
  deriving DecidableEq, Repr

/-- The mnemonic of each event (30_encoding.md R66). -/
def Instr.mnemonic : Instr → String
  | .edge0  => "EDGE0"
  | .edge1  => "EDGE1"
  | .poll   => "POLL"
  | .take _ => "TAKE"
  | .reset  => "RESET"
  | .decode => "DECODE"

/-- The edge event of a bit value (40_edge_sink.md R81; 30_encoding.md R61). -/
def Instr.edge : Bool → Instr
  | false => .edge0
  | true  => .edge1

/-- The bit value of an edge event; none for the consumer's events (30_encoding.md R61). -/
def Instr.edgeBit : Instr → Option Bool
  | .edge0  => some false
  | .edge1  => some true
  | .poll   => none
  | .take _ => none
  | .reset  => none
  | .decode => none

/-- Whether the edge context issues the event; otherwise the consumer context does (60_exceptions.md R170). A convention of
the host: the block checks nothing (60_exceptions.md R168). -/
def Instr.fromEdgeContext : Instr → Bool
  | .edge0  => true
  | .edge1  => true
  | .poll   => false
  | .take _ => false
  | .reset  => false
  | .decode => false

end Sys2Proof
end

