-- ==== Sys2Proof/Decode.lean ====
section
/-! DEFINITION. Event words to events and back (30_encoding.md R60 to R69): the fields, the six rows as data, the decoder, the
reasons it rejects by, the encoder, and the host's view of the decoder. -/

namespace Sys2Proof

/-- `OP`, bits 15:12 of the word (30_encoding.md R60). -/
def opField (w : Word) : BitVec 4 := w.extractLsb' 12 4

/-- `Z`, bits 11:8 of the word, reserved, must be 0 (30_encoding.md R60). -/
def zField (w : Word) : BitVec 4 := w.extractLsb' 8 4

/-- `ARG`, bits 7:0 of the word (30_encoding.md R60). -/
def argField (w : Word) : BitVec 8 := w.extractLsb' 0 8

/-- One row of the event map (30_encoding.md R66): the word matches when `word & mask = pattern`, and then stands for the
event built from its `ARG` field. -/
structure EventRow where
  pattern : Word
  mask    : Word
  build   : BitVec 8 → Instr

/-- The complete event set, in the table's order (30_encoding.md R66). -/
def eventRows : List EventRow :=
  [ { pattern := 0x1000, mask := 0xFFFF, build := fun _ => .edge0 },
    { pattern := 0x1001, mask := 0xFFFF, build := fun _ => .edge1 },
    { pattern := 0x2000, mask := 0xFFFF, build := fun _ => .poll },
    { pattern := 0x3000, mask := 0xFF00, build := fun arg => .take arg },
    { pattern := 0x4000, mask := 0xFFFF, build := fun _ => .reset },
    { pattern := 0x5000, mask := 0xFFFF, build := fun _ => .decode } ]

/-- Whether a word matches a row (30_encoding.md R66). -/
def EventRow.covers (r : EventRow) (w : Word) : Bool := w &&& r.mask == r.pattern

/-- Why a word is illegal, in the order of 30_encoding.md R67's list. -/
inductive Illegal where
  /-- `OP` is 0x0 or 0x6 to 0xF (reserved, 30_encoding.md R68). -/
  | reservedOp
  /-- `Z` is not 0. -/
  | reservedZ
  /-- An EDGE word with `ARG[7:1]` not 0. -/
  | edgeArg
  /-- A POLL, RESET or DECODE word with `ARG` not 0. -/
  | commandArg
  deriving DecidableEq, Repr

/-- The name given to the illegality of a word that matches no row (30_encoding.md R67). -/
def illegality (w : Word) : Illegal :=
  if opField w = 0 ∨ 6 ≤ (opField w).toNat then .reservedOp
  else if zField w ≠ 0 then .reservedZ
  else if opField w = 1 then .edgeArg
  else .commandArg

/-- The decoder, total on 16-bit words: the row that matches, or the word is illegal (30_encoding.md R66, R67). -/
def decodeWord (w : Word) : Except Illegal Instr :=
  match eventRows.find? (fun r => r.covers w) with
  | some r => .ok (r.build (argField w))
  | none   => .error (illegality w)

/-- The word of an event (30_encoding.md R61, R62, R63). -/
def encode : Instr → Word
  | .edge0  => 0x1000
  | .edge1  => 0x1001
  | .poll   => 0x2000
  | .take m => 0x3000 ||| m.zeroExtend 16
  | .reset  => 0x4000
  | .decode => 0x5000

/-- The word of `w` as the opcode table numbers its bits: bit 0 is the least significant bit of the one 16-bit word, and bits
at or above `nbits` are 0. The word reaches the block as one 16-bit value; no byte order enters. Log 14. -/
def tableWord (nbits w : Nat) : Word := BitVec.ofNat 16 (w % 2 ^ nbits)

/-- The decoder on a table word: an event word is exactly 16 bits (30_encoding.md R69), so a longer one is none. -/
def decodeTableWord (nbits w : Nat) : Option Instr :=
  if nbits ≤ 16 then
    match decodeWord (tableWord nbits w) with
    | .ok i    => some i
    | .error _ => none
  else none

end Sys2Proof
end

