-- ==== Sys2Proof/Config.lean ====
section
/-! DEFINITION. The implementation parameters (00_scope.md R5 to R10): one record, fixed for a run (10_state.md R27), its
default, its legality, and the two constants the spec leaves open, which have no body. -/

namespace Sys2Proof

/-- One row of `FORMATS` (00_scope.md R9): a frame length and the shift and mask of each field. -/
structure Format where
  len       : Nat
  facShift  : Nat
  facMask   : Nat
  cardShift : Nat
  cardMask  : Nat
  deriving DecidableEq, Repr

/-- The parameters, under the spec's names. No event reads them out or writes them (10_state.md R27). -/
structure Config where
  /-- `CAP_BYTES`, 00_scope.md R5. -/
  capBytes      : Nat
  /-- `IDLE_THRESHOLD` in ticks, 00_scope.md R7. -/
  idleThreshold : Nat
  /-- `FORMATS`, 00_scope.md R9. -/
  formats       : List Format
  /-- `COMBINE_MULT`, 00_scope.md R10. -/
  combineMult   : Nat
  deriving DecidableEq, Repr

/-- `MAX_BITS = 8 × CAP_BYTES` (00_scope.md R6): derived, not set on its own. -/
def Config.maxBits (c : Config) : Nat := 8 * c.capBytes

/-- The 34-bit row of the default table (00_scope.md R9). -/
def format34 : Format := { len := 34, facShift := 17, facMask := 0xFFFF, cardShift := 1, cardMask := 0xFFFF }

/-- The 26-bit row of the default table (00_scope.md R9). -/
def format26 : Format := { len := 26, facShift := 17, facMask := 0xFF, cardShift := 1, cardMask := 0xFFFF }

/-- Every parameter at its default (00_scope.md R5, R7, R9, R10). -/
def Config.default : Config :=
  { capBytes := 32, idleThreshold := 4000000, formats := [format34, format26], combineMult := 100000 }

/-- The legal values: `CAP_BYTES ≥ 1` (00_scope.md R5) and distinct lengths in `FORMATS` (00_scope.md R9). Any
`IDLE_THRESHOLD ≥ 0` is legal (00_scope.md R7); the spec bounds `COMBINE_MULT` by nothing. -/
def Config.legal (c : Config) : Bool :=
  decide (1 ≤ c.capBytes) && decide ((c.formats.map Format.len).Nodup)

/-- `TICK_UNIT` (00_scope.md R8), the physical duration of one tick: OPEN, so it has no body, and no definition of the
machine reads it. Log 13. -/
opaque tickUnit : Nat

/-- Wall-clock length of a number of ticks, the one use 00_scope.md R8 names for `TICK_UNIT`. -/
def wallClock (ticks : Nat) : Nat := ticks * tickUnit

/-- What the 64-bit combined-value result holds when the exact combined value does not fit it: a free value of that exact
value. The spec asks for both an exact and a 64-bit result (42_field_decoder.md R137) and gives no word on this case, which
the default parameters never reach. DESIGN CHOICE, log 8. -/
opaque freeCombined : Nat → BitVec 64

end Sys2Proof
end

