-- ==== Sys2Proof/Machine/Boundary.lean ====
section
/-! DEFINITION. What crosses the block's boundary: an event as the environment presents it, the response of each event
(30_encoding.md R64), and one entry of the observation of a run (60_exceptions.md R173). -/

namespace Sys2Proof.Machine

/-- One event as presented: its word, its time, and what stands on the two operand ports (30_encoding.md R60, R63). `decRaw` is
a natural number because the port's width, `MAX_BITS`, is a parameter (00_scope.md R11). -/
structure Input where
  word   : Word
  now    : Nat
  decN   : BitVec 9
  decRaw : Nat
  deriving DecidableEq, Repr

/-- A DecodedEvent (00_scope.md glossary; 30_encoding.md R64), its last three fields optional. The combined value is a 64-bit
result (00_scope.md R11). -/
structure DecodedEvent where
  bitCount      : BitVec 9
  rawValue      : Nat
  facilityCode  : Option Nat
  cardCode      : Option Nat
  combinedValue : Option (BitVec 64)
  deriving DecidableEq, Repr

/-- The responses (30_encoding.md R64). -/
inductive Response where
  /-- EDGE0, EDGE1 and RESET respond nothing. -/
  | none
  /-- POLL: a bit count. -/
  | count (n : Nat)
  /-- TAKE: a bit count and a sequence of bytes, byte 0 first. -/
  | frame (n : Nat) (bytes : List Byte)
  /-- DECODE. -/
  | decoded (e : DecodedEvent)
  deriving DecidableEq, Repr

/-- DECODE's two operands as sampled (30_encoding.md R63). -/
structure Operands where
  n   : BitVec 9
  raw : Nat
  deriving DecidableEq, Repr

/-- One event of a run with its `now`, its operands and its response (60_exceptions.md R173). Its word is `encode event`.
Only DECODE has operands (30_encoding.md R63). Log 7. -/
structure Observation where
  event    : Instr
  now      : Nat
  operands : Option Operands
  response : Response
  deriving DecidableEq, Repr

end Sys2Proof.Machine
end

