-- ==== Sys2Proof/Machine/State.lean ====
section
/-! DEFINITION. The state as plain data, the reasons a step stops, and the state after reset. -/

namespace Sys2Proof.Machine

/-- Storage: (index, byte) cells, indices strictly rising, none listed with the byte an unlisted index reads as. The block's one
storage space is `FRAME_BYTES`, indexed 0 .. CAP_BYTES-1 (20_memory.md R40). Log 10. -/
abbrev Memory := List Host.Cell

/-- Why a step stops in a stuck state. No event raises one (60_exceptions.md R160). -/
inductive Fault where
  /-- Raised by `step` alone, before any event is performed: the presented event's `now` is below its predecessor's, so it
  "has no move" (10_state.md R23; 60_exceptions.md R172). UNSAFE for a clock that really steps back or wraps
  (92_eei_decisions.md D24). Log 5. -/
  | clockSteppedBack (before now : Nat)
  deriving DecidableEq, Repr

/-- Why a step has no meaning. -/
inductive Refusal where
  /-- An instruction without a meaning: no arm of `exec` answers it. Safe. -/
  | notModelled (mnemonic : String)
  /-- Raised by `step` on a word that matches no row of the event map (30_encoding.md R67; 60_exceptions.md R164). Safe. -/
  | illegalWord (w : Word) (why : Illegal)
  deriving DecidableEq, Repr

/-- The state: the block's three fields (10_state.md R20, R21, R22), the parameters fixed for the run (10_state.md R27, log 2), the
inputs as sampled (10_state.md R23, 30_encoding.md R63), and the environment's two ends: the events presented and not yet
performed (log 3), and the observation so far (60_exceptions.md R173, log 7). -/
structure State where
  /-- The parameters; no event writes them. -/
  config       : Config
  /-- `FRAME_BYTES`. -/
  frameBytes   : Memory
  /-- `BIT_COUNT`. -/
  bitCount     : Nat
  /-- `LAST_ACTIVITY`. -/
  lastActivity : Nat
  /-- The time input `now` of the event being performed, and so of the last event performed. -/
  now          : Nat
  /-- The operand port `DEC_N`. -/
  decN         : BitVec 9
  /-- The operand port `DEC_RAW`. -/
  decRaw       : Nat
  /-- Presented events not yet performed, in the total order, first to be performed first. -/
  pending      : List Input
  /-- The observation of the run, newest first. No definition of the machine reads it. -/
  trace        : List Observation
  deriving DecidableEq, Repr

/-- The state after power-on with parameters `c`, for each value of the draw the spec leaves `LAST_ACTIVITY` at (10_state.md
R28; 70_reset_and_hazards.md R180): bytes 0x00, count 0. The model's own fields start empty or 0 (logs 3, 4, 6, 7). -/
def State.powerOn (c : Config) (draw : Nat) : State :=
  { config := c, frameBytes := [], bitCount := 0, lastActivity := draw, now := 0, decN := 0, decRaw := 0,
    pending := [], trace := [] }

/-- The state after reset: power-on at the default parameters. The spec gives `LAST_ACTIVITY` no value there; the 0 is the
model's DESIGN CHOICE, log 1. -/
def State.reset : State := State.powerOn Config.default 0

end Sys2Proof.Machine
end

