-- ==== Sys2Proof/WellFormed.lean ====
section
/-! DEFINITION. Which terms are well formed. An `Instr` has no ill-formed term: `maxBytes` is 8 bits by its type (30_encoding.md
R65) and no other event has an immediate, so there is no check on it. The checks are on the configuration (`Config.legal`, in
Config.lean), on the width of a presented raw value, and on the times of a sequence of presented events. -/

namespace Sys2Proof.Machine

/-- `DEC_RAW` is `MAX_BITS` bits wide (00_scope.md R11). -/
def Input.fits (c : Config) (inp : Input) : Bool := decide (inp.decRaw < 2 ^ c.maxBits)

/-- Non-decreasing times from `start` on: the environment's duty (10_state.md R23; 60_exceptions.md R172). -/
def orderedFrom (start : Nat) : List Input → Bool
  | []          => true
  | inp :: rest => decide (start ≤ inp.now) && orderedFrom inp.now rest

end Sys2Proof.Machine
end

