-- ==== Sys2Proof/Machine/Ops.lean ====
section
/-! DEFINITION. The named operations over storage, count, time and response that the meanings share. There is no operation that
takes an exception and none that returns from one: no event raises an exception and nothing transfers control
(60_exceptions.md R160, R167). -/

namespace Sys2Proof.Machine

/-- What an unlisted index reads as: the reset contents (10_state.md R28). -/
def Memory.unlisted : Byte := 0x00

/-- The byte at an index. -/
def Memory.read : Memory → Nat → Byte
  | [],             _ => Memory.unlisted
  | (a, v) :: rest, k => if a = k then v else Memory.read rest k

/-- Put a cell in its place among rising indices. -/
def Memory.insert (cell : Host.Cell) : Memory → Memory
  | []        => [cell]
  | c :: rest => if cell.1 < c.1 then cell :: c :: rest else c :: Memory.insert cell rest

/-- Write the byte at an index; writing what an unlisted index reads as removes the cell, which keeps the canonical form. -/
def Memory.write (m : Memory) (k : Nat) (v : Byte) : Memory :=
  if v = Memory.unlisted then m.filter (fun c => c.1 != k)
  else Memory.insert (k, v) (m.filter (fun c => c.1 != k))

/-- Write 0x00 to every index below `cap`: the clearing loop of TAKE and RESET (41_frame_reader.md R102, R107). -/
def Memory.clearBelow (cap : Nat) (m : Memory) : Memory := m.filter (fun c => decide (cap ≤ c.1))

/-- The canonical form: indices strictly rise and no cell holds what an unlisted index reads as. -/
def Memory.wf (m : Memory) : Bool :=
  decide ((m.map Prod.fst).Pairwise (· < ·)) && m.all (fun c => c.2 != Memory.unlisted)

/-- Every listed index is storage the block has (20_memory.md R40). -/
def Memory.inRange (cap : Nat) (m : Memory) : Bool := m.all (fun c => decide (c.1 < cap))

/-- `BufRead(k)` (20_memory.md R42; 00_scope.md R14): the byte where there is storage, else 0x00. -/
def State.bufRead (s : State) (k : Nat) : Byte :=
  if k < s.config.capBytes then s.frameBytes.read k else 0x00

/-- The index of the target byte, `floor(BIT_COUNT / 8)` (40_edge_sink.md R80). -/
def targetByte (bitCount : Nat) : Nat := bitCount / 8

/-- `((byte << 1) | b)[7:0]` (40_edge_sink.md R81). -/
def shiftIn (v : Byte) (b : Bool) : Byte := v <<< 1 ||| (BitVec.ofBool b).zeroExtend 8

/-- Step 1 of an edge event: shift the bit into the target byte and count it (40_edge_sink.md R81). -/
def State.appendBit (s : State) (b : Bool) : State :=
  { s with
    frameBytes := s.frameBytes.write (targetByte s.bitCount) (shiftIn (s.frameBytes.read (targetByte s.bitCount)) b)
    bitCount   := s.bitCount + 1 }

/-- Step 3 of an edge event: `LAST_ACTIVITY <- now` (40_edge_sink.md R81). -/
def State.touch (s : State) : State := { s with lastActivity := s.now }

/-- The reset of the frame buffer shared by TAKE and RESET: every byte 0x00 and the count 0, `LAST_ACTIVITY` unchanged
(41_frame_reader.md R102, R107, R108). -/
def State.clearFrame (s : State) : State :=
  { s with frameBytes := s.frameBytes.clearBelow s.config.capBytes, bitCount := 0 }

/-- The bytes a frame of `n` bits needs, `floor(n / 8) + 1` (41_frame_reader.md R103). -/
def neededBytes (n : Nat) : Nat := n / 8 + 1

/-- The bytes a TAKE returns, in index order (20_memory.md R43; 41_frame_reader.md R102). -/
def State.snapshot (s : State) (len : Nat) : List Byte := (List.range len).map s.bufRead

/-- The operands an event is observed with: DECODE's two, none for the others (30_encoding.md R63). -/
def State.operandsOf (s : State) (i : Instr) : Option Operands :=
  match i with
  | .edge0  => none
  | .edge1  => none
  | .poll   => none
  | .take _ => none
  | .reset  => none
  | .decode => some { n := s.decN, raw := s.decRaw }

/-- `respond(r)`: the response goes to the issuer (00_scope.md R14), which the model records as one entry of the observation
(60_exceptions.md R173). It is kept nowhere in the block (10_state.md R32). -/
def State.respond (s : State) (i : Instr) (r : Response) : State :=
  { s with trace := { event := i, now := s.now, operands := s.operandsOf i, response := r } :: s.trace }

/-- Sampling a presented event: its time and what the operand ports carry; `DEC_RAW` has `MAX_BITS` lines (00_scope.md R11;
30_encoding.md R63, R65). Log 6. -/
def State.sample (s : State) (inp : Input) (rest : List Input) : State :=
  { s with
    pending := rest
    now     := inp.now
    decN    := inp.decN
    decRaw  := inp.decRaw % 2 ^ s.config.maxBits }

/-- The environment presents one more event, after those already presented (60_exceptions.md R172). -/
def State.present (s : State) (inp : Input) : State := { s with pending := s.pending ++ [inp] }

/-- The environment presents an event word to be performed next, at the present time, with the operand ports as they stand. -/
def State.presentNext (s : State) (w : Word) : State :=
  { s with pending := { word := w, now := s.now, decN := s.decN, decRaw := s.decRaw } :: s.pending }

end Sys2Proof.Machine
end

