-- ==== Sys2Proof/Machine/Operands.lean ====
section
/-! DEFINITION. The operand forms (30_encoding.md R65): TAKE's immediate, the bit of an edge word, and the two ports. -/

namespace Sys2Proof.Machine

/-- `maxBytes = zext(ARG)`: neither scaled nor sign-extended (30_encoding.md R65). -/
def maxBytesValue (maxBytes : BitVec 8) : Nat := maxBytes.toNat

/-- `len = min(floor(N/8) + 1, maxBytes)`: how many bytes a TAKE of an `n`-bit frame copies (41_frame_reader.md R105). -/
def takeLength (n : Nat) (maxBytes : BitVec 8) : Nat := min (neededBytes n) (maxBytesValue maxBytes)

/-- The bit value of an edge word is `ARG[0]` (30_encoding.md R61, R65). -/
def edgeBitOfWord (w : Word) : Bool := (argField w).getLsbD 0

/-- `DEC_N`, read whole as an unsigned 9-bit value (30_encoding.md R65). -/
def State.decNOperand (s : State) : BitVec 9 := s.decN

/-- `DEC_RAW`, read whole as an unsigned value (30_encoding.md R65). -/
def State.decRawOperand (s : State) : Nat := s.decRaw

end Sys2Proof.Machine
end

