-- ==== Sys2Proof/Machine/Flags.lean ====
section
/-! DEFINITION. The block stores no flag (10_state.md R25); the one condition it computes, at each POLL and TAKE, is the idle
comparison (41_frame_reader.md R100; 60_exceptions.md R169). -/

namespace Sys2Proof.Machine

/-- `Ready(S, now)`: bits are held and the elapsed time strictly exceeds the threshold (10_state.md R30). Times never run below
`LAST_ACTIVITY` while bits are held; log 18 says what the subtraction does in states no run reaches. -/
def State.ready (s : State) (now : Nat) : Bool :=
  decide (0 < s.bitCount) && decide (s.config.idleThreshold < now - s.lastActivity)

/-- `PollValue(S, now)`, its branches as 41_frame_reader.md R100 writes them. -/
def State.pollValue (s : State) (now : Nat) : Nat :=
  if s.bitCount = 0 then 0
  else if now - s.lastActivity > s.config.idleThreshold then s.bitCount
  else 0

end Sys2Proof.Machine
end

