-- ==== Sys2Proof/Machine/EdgeSink.lean ====
section
/-! DEFINITION. EdgeSink: EDGE0 and EDGE1 (40_edge_sink.md). -/

namespace Sys2Proof.Machine

/-- `EDGE(b)` up to its response (40_edge_sink.md R81): below capacity append the bit, at capacity drop it (60_exceptions.md
R161); always record the time. -/
def State.edge (s : State) (b : Bool) : State :=
  (if s.bitCount < s.config.maxBits then s.appendBit b else s).touch

/-- EDGE0 (40_edge_sink.md R82). -/
def execEdge0 (s : State) : Host.Outcome State Fault Refusal :=
  .next ((s.edge false).respond .edge0 .none)

/-- EDGE1 (40_edge_sink.md R83). -/
def execEdge1 (s : State) : Host.Outcome State Fault Refusal :=
  .next ((s.edge true).respond .edge1 .none)

end Sys2Proof.Machine
end

