-- ==== Sys2Proof/Machine/FieldDecoder.lean ====
section
/-! DEFINITION. FieldDecoder: DECODE, and FrameValue, which turns the bytes a TAKE returned into the raw value
(42_field_decoder.md). -/

namespace Sys2Proof.Machine

/-- `(raw >> e.facShift) & e.facMask` (42_field_decoder.md R132). -/
def facilityOf (e : Format) (raw : Nat) : Nat := (raw >>> e.facShift) &&& e.facMask

/-- `(raw >> e.cardShift) & e.cardMask` (42_field_decoder.md R132). -/
def cardOf (e : Format) (raw : Nat) : Nat := (raw >>> e.cardShift) &&& e.cardMask

/-- The combined value, exact and in 64 bits (42_field_decoder.md R137); where the exact value does not fit, the free value of
log 8. -/
def combinedOf (c : Config) (fac card : Nat) : BitVec 64 :=
  if fac * c.combineMult + card < 2 ^ 64 then BitVec.ofNat 64 (fac * c.combineMult + card)
  else freeCombined (fac * c.combineMult + card)

/-- The entry of `FORMATS` with length `n` (42_field_decoder.md R133: at most one, the lengths being distinct). -/
def formatOf (c : Config) (n : Nat) : Option Format := c.formats.find? (fun e => e.len == n)

/-- The decoder as a pure function of the operands (42_field_decoder.md R132, R136, R140). -/
def decodeFields (c : Config) (n : BitVec 9) (raw : Nat) : DecodedEvent :=
  match formatOf c n.toNat with
  | some e =>
    { bitCount := n, rawValue := raw, facilityCode := some (facilityOf e raw), cardCode := some (cardOf e raw),
      combinedValue := some (combinedOf c (facilityOf e raw) (cardOf e raw)) }
  | none =>
    { bitCount := n, rawValue := raw, facilityCode := none, cardCode := none, combinedValue := none }

/-- DECODE (42_field_decoder.md R132): the block's state is neither read nor written. -/
def execDecode (s : State) : Host.Outcome State Fault Refusal :=
  .next (s.respond .decode (.decoded (decodeFields s.config s.decNOperand s.decRawOperand)))

/-- `B(j)` of FrameValue: a byte TAKE did not return reads as 0x00 (42_field_decoder.md R130). -/
def returnedByte (bytes : List Byte) (j : Nat) : Nat := (bytes.getD j 0x00).toNat

/-- The full bytes of FrameValue, concatenated big-endian (42_field_decoder.md R130). -/
def fullBytesValue (bytes : List Byte) (q : Nat) : Nat :=
  (List.range q).foldl (fun v j => (v <<< 8) ||| returnedByte bytes j) 0

/-- `FrameValue(N, bytes)` (42_field_decoder.md R130): the full bytes, then the low `N mod 8` bits of the partial byte. -/
def frameValue (n : Nat) (bytes : List Byte) : Nat :=
  if 0 < n % 8 then
    (fullBytesValue bytes (n / 8) <<< (n % 8)) ||| (returnedByte bytes (n / 8) &&& (2 ^ (n % 8) - 1))
  else fullBytesValue bytes (n / 8)

end Sys2Proof.Machine
end

