-- ==== Sys2Proof/Machine/FrameReader.lean ====
section
/-! DEFINITION. FrameReader: POLL, TAKE and RESET (41_frame_reader.md). -/

namespace Sys2Proof.Machine

/-- POLL (41_frame_reader.md R101): respond PollValue, write nothing. -/
def execPoll (s : State) : Host.Outcome State Fault Refusal :=
  .next (s.respond .poll (.count (s.pollValue s.now)))

/-- TAKE (41_frame_reader.md R102): ready test, snapshot and reset in one event (41_frame_reader.md R106). -/
def execTake (maxBytes : BitVec 8) (s : State) : Host.Outcome State Fault Refusal :=
  if s.pollValue s.now = 0 then
    .next (s.respond (.take maxBytes) (.frame 0 []))
  else
    .next (s.clearFrame.respond (.take maxBytes)
      (.frame s.bitCount (s.snapshot (takeLength s.bitCount maxBytes))))

/-- RESET (41_frame_reader.md R107). -/
def execReset (s : State) : Host.Outcome State Fault Refusal :=
  .next (s.clearFrame.respond .reset .none)

end Sys2Proof.Machine
end

