-- ==== Sys2Proof/Machine/Dispatch.lean ====
section
/-! DEFINITION. One arm per event (30_encoding.md R66). -/

namespace Sys2Proof.Machine

def exec (i : Instr) (s : State) : Host.Outcome State Fault Refusal :=
  match i with
  | .edge0 => Sys2Proof.Machine.execEdge0 s
  | .edge1 => Sys2Proof.Machine.execEdge1 s
  | .poll => Sys2Proof.Machine.execPoll s
  | .take maxBytes => Sys2Proof.Machine.execTake maxBytes s
  | .reset => Sys2Proof.Machine.execReset s
  | .decode => Sys2Proof.Machine.execDecode s

end Sys2Proof.Machine
end

