-- ==== Sys2Proof/Machine/Step.lean ====
section
/-! DEFINITION. One step (10_state.md R26, R29): the next presented event is sampled, decoded and performed, atomically. -/

namespace Sys2Proof.Machine

/-- One step. With nothing presented the block's state persists unchanged (60_exceptions.md R174, log 9). An illegal word is
refused (30_encoding.md R67). An event whose `now` is below its predecessor's has no move (10_state.md R23, log 5). -/
def step (s : State) : Host.Outcome State Fault Refusal :=
  match s.pending with
  | [] => .next s
  | inp :: rest =>
    match decodeWord inp.word with
    | .error why => .refused (.illegalWord inp.word why)
    | .ok i =>
      if inp.now < s.now then .fault (.clockSteppedBack s.now inp.now)
      else exec i (s.sample inp rest)

/-- The state with the given word presented as the very next event, at the present time and with the operand ports as they
stand. Log 3 says how events come to be presented. -/
def State.withFetchWord (s : State) (nbits w : Nat) : State := s.presentNext (tableWord nbits w)

end Sys2Proof.Machine
end

