-- ==== Sys2Proof/Machine/Script.lean ====
section
/-! DEFINITION. Writing sequences of events: the textual syntax of one event (30_encoding.md R70) and the pseudo-events BITS, FRAME
and READ (30_encoding.md R71). -/

namespace Sys2Proof.Machine

/-- An event without operands presented at a time; what its operand ports carry is not read (30_encoding.md R63). -/
def inputOf (i : Instr) (t : Nat) : Input := { word := encode i, now := t, decN := 0, decRaw := 0 }

/-- A DECODE presented at a time with its two operands (30_encoding.md R63). -/
def decodeInput (t : Nat) (n : BitVec 9) (raw : Nat) : Input :=
  { word := encode .decode, now := t, decN := n, decRaw := raw }

/-- `BITS t0, dt, bits`: event `i` is EDGE`b_i` at `t0 + i × dt` (30_encoding.md R71). -/
def bitsEvents (t0 dt : Nat) (bits : List Bool) : List Input :=
  bits.zipIdx.map (fun bi => inputOf (.edge bi.1) (t0 + bi.2 * dt))

/-- The bits of `v` over `n` positions, most significant first (30_encoding.md R71). -/
def bitsOf (n v : Nat) : List Bool := (List.range n).map (fun i => v.testBit (n - 1 - i))

/-- `FRAME t0, dt, n, v` (30_encoding.md R71). -/
def frameEvents (t0 dt : Nat) (n v : Nat) : List Input := bitsEvents t0 dt (bitsOf n v)

/-- The second event of READ: a DECODE of the frame a TAKE returned, when its count is not zero (30_encoding.md R71). A count
that the 9-bit port cannot carry, possible only for CAP_BYTES of 64 or more, gives no event: log 16. -/
def readFollowUp (t : Nat) (r : Response) : List Input :=
  match r with
  | .none       => []
  | .count _    => []
  | .frame n bs => if 0 < n ∧ n < 2 ^ 9 then [decodeInput t (BitVec.ofNat 9 n) (frameValue n bs)] else []
  | .decoded _  => []

/-- `READ t, m` in a state: `TAKE m` at `t`, then what its response asks for (30_encoding.md R71; the consumer's read step of
60_exceptions.md R170). -/
def readEvents (s : State) (t : Nat) (m : BitVec 8) : List Input :=
  match exec (.take m) { s with now := t } with
  | .next s'   => inputOf (.take m) t :: (s'.trace.take 1).flatMap (fun o => readFollowUp t o.response)
  | .fault _   => [inputOf (.take m) t]
  | .refused _ => [inputOf (.take m) t]

/-- The digits of both bases, each at the place of its value (30_encoding.md R70). -/
def digits : List Char := ['0', '1', '2', '3', '4', '5', '6', '7', '8', '9', 'A', 'B', 'C', 'D', 'E', 'F']

/-- A numeral: one digit or more, each below the base, the most significant first (30_encoding.md R70). A letter may be of either
case: log 19. -/
def numeral (base : Nat) (cs : List Char) : Option Nat :=
  (cs.mapM (fun c => digits.idxOf? c.toUpper)).bind (fun ds =>
    if ds ≠ [] ∧ ds.all (· < base) then some (ds.foldl (fun v d => base * v + d) 0) else none)

/-- A decimal numeral (30_encoding.md R70). -/
def decimal (cs : List Char) : Option Nat := numeral 10 cs

/-- A hexadecimal numeral, `0x` before its digits (30_encoding.md R70). -/
def hexadecimal : List Char → Option Nat
  | '0' :: 'x' :: cs => numeral 16 cs
  | _ => none

/-- The line without its comment, split at spaces and commas (30_encoding.md R70). -/
def tokens (line : List Char) : List (List Char) :=
  ((line.takeWhile (· ≠ ';')).foldr
    (fun c acc => if c = ' ' ∨ c = ',' then [] :: acc else (c :: acc.headD []) :: acc.tail) [[]]).filter (· ≠ [])

/-- The event a mnemonic and its arguments name, as presented at time `t`. -/
def assembleEvent (t : Nat) (mnemonic : List Char) (args : List (List Char)) : Option Input :=
  if mnemonic = ['E', 'D', 'G', 'E', '0'] ∧ args = [] then some (inputOf .edge0 t)
  else if mnemonic = ['E', 'D', 'G', 'E', '1'] ∧ args = [] then some (inputOf .edge1 t)
  else if mnemonic = ['P', 'O', 'L', 'L'] ∧ args = [] then some (inputOf .poll t)
  else if mnemonic = ['R', 'E', 'S', 'E', 'T'] ∧ args = [] then some (inputOf .reset t)
  else if mnemonic = ['T', 'A', 'K', 'E'] then
    match args with
    | [m] => (decimal m).bind (fun v => if v < 2 ^ 8 then some (inputOf (.take (BitVec.ofNat 8 v)) t) else none)
    | _   => none
  else if mnemonic = ['D', 'E', 'C', 'O', 'D', 'E'] then
    match args with
    | [n, raw] => (decimal n).bind (fun v => (hexadecimal raw).bind (fun r =>
        if v < 2 ^ 9 then some (decodeInput t (BitVec.ofNat 9 v) r) else none))
    | _ => none
  else none

/-- One line of the textual syntax, `@<now> <MNEMONIC> [<arg>] ; comment` (30_encoding.md R70). -/
def assemble (line : List Char) : Option Input :=
  match tokens line with
  | ('@' :: time) :: mnemonic :: args => (decimal time).bind (fun t => assembleEvent t mnemonic args)
  | _ => none

/-- `assemble` on a string. -/
def assembleText (line : String) : Option Input := assemble line.toList

end Sys2Proof.Machine
end

