-- ==== Sys2Proof/Safety.lean ====
section
/-! DEFINITION. The terms that claims are stated in: the frame as the sequence of its bits, read from the observation of the run
alone; what it means that the stored bytes hold it; the invariant; runs and reachable states; and which states no event can
tell apart. None of it is read by the machine. -/

namespace Sys2Proof.Machine

/-! ## The frame as bits -/

/-- Bit `f_i` of a frame, numbered in arrival order (00_scope.md R13). -/
def frameBit (f : List Bool) (i : Nat) : Bool := f.getD i false

/-- The frame's value, `Σ_{i<N} f_i × 2^(N-1-i)` (00_scope.md R13). -/
def rawValueOf (f : List Bool) : Nat :=
  ∑ i ∈ Finset.range f.length, (frameBit f i).toNat * 2 ^ (f.length - 1 - i)

/-- The count an observed TAKE reported; 0 for a TAKE that took no frame and for every other event (41_frame_reader.md R109: "a
TAKE that returns a non-zero count"). -/
def Observation.reportedCount (o : Observation) : Nat :=
  match o.event, o.response with
  | .take _, .frame n _ => n
  | _, _ => 0

/-- The frame in progress, as the observation of the run (newest first) gives it: the bits of the edges since the last RESET or
successful TAKE, less those that came at capacity (10_state.md R21; 20_memory.md R50). -/
def frameOf (c : Config) : List Observation → List Bool
  | [] => []
  | o :: older =>
    match o.event with
    | .edge0  => if (frameOf c older).length < c.maxBits then frameOf c older ++ [false] else frameOf c older
    | .edge1  => if (frameOf c older).length < c.maxBits then frameOf c older ++ [true] else frameOf c older
    | .poll   => frameOf c older
    | .take _ => if o.reportedCount = 0 then frameOf c older else []
    | .reset  => []
    | .decode => frameOf c older

/-- The time of the most recent edge event of a run, whether or not its bit was stored (10_state.md R22). -/
def lastEdgeTime : List Observation → Option Nat
  | [] => none
  | o :: older => if o.event.edgeBit.isSome then some o.now else lastEdgeTime older

/-! ## What became of each edge -/

/-- How many edges a run saw. -/
def edgeCount (trace : List Observation) : Nat := trace.countP (fun o => o.event.edgeBit.isSome)

/-- How many bits of its frame an observed TAKE handed out: those in the bytes it returned, eight to a byte (41_frame_reader.md
R105; 20_memory.md R41). -/
def Observation.copiedCount (o : Observation) : Nat :=
  match o.event, o.response with
  | .take _, .frame n bytes => min n (8 * bytes.length)
  | _, _ => 0

/-- How many bits its TAKEs handed out. -/
def copiedBits (trace : List Observation) : Nat := (trace.map Observation.copiedCount).sum

/-- How many bits its TAKEs reported and did not hand out, `maxBytes` being too small: lost with the clearing (41_frame_reader.md
R105; 70_reset_and_hazards.md R184). -/
def shortTakeBits (trace : List Observation) : Nat := (trace.map (fun o => o.reportedCount - o.copiedCount)).sum

/-- How many edges came at capacity (60_exceptions.md R161). -/
def droppedBits (c : Config) : List Observation → Nat
  | [] => 0
  | o :: older =>
    droppedBits c older + (if o.event.edgeBit.isSome ∧ c.maxBits ≤ (frameOf c older).length then 1 else 0)

/-- How many bits its RESETs discarded (70_reset_and_hazards.md R191). -/
def discardedBits (c : Config) : List Observation → Nat
  | [] => 0
  | o :: older => discardedBits c older + (if o.event = .reset then (frameOf c older).length else 0)

/-! ## The invariant -/

/-- The stored bytes hold the frame `f`: the four items of 10_state.md R24, with the packing of 20_memory.md R41. -/
structure State.Holds (s : State) (f : List Bool) : Prop where
  /-- `BIT_COUNT` counts the bits. -/
  count   : s.bitCount = f.length
  /-- Item 1. -/
  within  : f.length ≤ s.config.maxBits
  /-- Item 2: a full byte, first-received bit at byte bit 7. -/
  full    : ∀ k j, k < f.length / 8 → j < 8 → (s.frameBytes.read k).getLsbD (7 - j) = frameBit f (8 * k + j)
  /-- Item 3: the partial byte is below `2^r`. -/
  small   : f.length / 8 < s.config.capBytes → (s.frameBytes.read (f.length / 8)).toNat < 2 ^ (f.length % 8)
  /-- Item 3: and its `r` bits are right-aligned. -/
  partly  : f.length / 8 < s.config.capBytes → ∀ j, j < f.length % 8 →
    (s.frameBytes.read (f.length / 8)).getLsbD (f.length % 8 - 1 - j) = frameBit f (8 * (f.length / 8) + j)
  /-- Item 4: the bytes beyond are 0. -/
  beyond  : ∀ k, f.length / 8 < k → k < s.config.capBytes → s.frameBytes.read k = 0x00

/-- What every reachable state keeps. -/
structure State.Inv (s : State) : Prop where
  /-- Storage is in its canonical form. -/
  canonical : s.frameBytes.wf = true
  /-- No byte outside `FRAME_BYTES[0 .. CAP_BYTES-1]` is ever written (40_edge_sink.md R85). -/
  inRange   : s.frameBytes.inRange s.config.capBytes = true
  /-- The stored bytes hold the frame that the observation of the run gives (10_state.md R24). -/
  holds     : s.Holds (frameOf s.config s.trace)
  /-- While bits are held, `LAST_ACTIVITY` is the time of the latest edge (10_state.md R31). -/
  activity  : 0 < s.bitCount → lastEdgeTime s.trace = some s.lastActivity
  /-- And it is no later than the latest event (10_state.md R23). -/
  elapsed   : 0 < s.bitCount → s.lastActivity ≤ s.now
  /-- `DEC_RAW` carries `MAX_BITS` bits (00_scope.md R11). -/
  rawFits   : s.decRaw < 2 ^ s.config.maxBits

/-- Every edge the run saw is in exactly one place: handed out by a TAKE, lost to a TAKE's short `maxBytes`, dropped at capacity,
discarded by a RESET, or held (90_conflicts.md C6). -/
def State.Accounted (s : State) : Prop :=
  edgeCount s.trace = copiedBits s.trace + shortTakeBits s.trace + droppedBits s.config s.trace +
    discardedBits s.config s.trace + s.bitCount

/-! ## The block over bits

The same six events on a machine that holds the frame as the list of its bits and no bytes at all: what the rules say without the
packing. -/

/-- A block that holds bits in place of bytes. -/
structure BitBlock where
  bits : List Bool
  last : Nat

/-- Byte `k` of the packing of a frame: the value of its (at most eight) bits, right-aligned; 0x00 beyond the frame
(20_memory.md R41; 41_frame_reader.md R104). -/
def packedByte (f : List Bool) (k : Nat) : Byte := BitVec.ofNat 8 (rawValueOf ((f.drop (8 * k)).take 8))

/-- A bit arrives (10_state.md R21; 40_edge_sink.md R81). -/
def BitBlock.receive (c : Config) (a : BitBlock) (b : Bool) (now : Nat) : BitBlock :=
  { bits := if a.bits.length < c.maxBits then a.bits ++ [b] else a.bits, last := now }

/-- One event: the block after it and the response (30_encoding.md R64). -/
def BitBlock.perform (c : Config) (a : BitBlock) (now : Nat) (n : BitVec 9) (raw : Nat) : Instr → BitBlock × Response
  | .edge0  => (a.receive c false now, .none)
  | .edge1  => (a.receive c true now, .none)
  | .poll   => (a, .count (if a.last + c.idleThreshold < now then a.bits.length else 0))
  | .take m =>
    if 0 < a.bits.length ∧ a.last + c.idleThreshold < now then
      ({ bits := [], last := a.last },
        .frame a.bits.length ((List.range (min (a.bits.length / 8 + 1) m.toNat)).map (packedByte a.bits)))
    else (a, .frame 0 [])
  | .reset  => ({ bits := [], last := a.last }, .none)
  | .decode => (a, .decoded (decodeFields c n raw))

/-! ## What one event does outside the block -/

/-- From `s`, event `i` responds `r`, and everything but the block's three fields is as it was: the parameters, the sampled
inputs, the events still presented. -/
structure Responds (i : Instr) (r : Response) (s t : State) : Prop where
  config  : t.config = s.config
  now     : t.now = s.now
  decN    : t.decN = s.decN
  decRaw  : t.decRaw = s.decRaw
  pending : t.pending = s.pending
  trace   : t.trace = { event := i, now := s.now, operands := s.operandsOf i, response := r } :: s.trace

/-- The block's three fields are as they were, storage byte by byte. -/
structure SameBlock (s t : State) : Prop where
  bytes        : ∀ k, t.frameBytes.read k = s.frameBytes.read k
  bitCount     : t.bitCount = s.bitCount
  lastActivity : t.lastActivity = s.lastActivity

/-- The block is left cleared as RESET and a successful TAKE leave it (10_state.md R28): every byte 0x00, the count 0,
`LAST_ACTIVITY` and whatever lies outside `FRAME_BYTES` unchanged. -/
structure Cleared (s t : State) : Prop where
  bytes        : ∀ k, k < s.config.capBytes → t.frameBytes.read k = 0x00
  outside      : ∀ k, s.config.capBytes ≤ k → t.frameBytes.read k = s.frameBytes.read k
  bitCount     : t.bitCount = 0
  lastActivity : t.lastActivity = s.lastActivity

/-! ## Runs -/

/-- `k` steps of the machine. -/
def run (k : Nat) (s : State) : Host.Outcome State Fault Refusal := Sys2Proof.core.run k s

/-- The state with its time input at another time: the same block asked at that time. -/
def State.withNow (s : State) (time : Nat) : State := { s with now := time }

/-- The state with these events presented in place of those that were. -/
def State.withPending (s : State) (pending : List Input) : State := { s with pending := pending }

/-- The state with another observation of the past. -/
def State.withTrace (s : State) (trace : List Observation) : State := { s with trace := trace }

/-- The states some run reaches with parameters `c`: power-on with any draw (10_state.md R28), then any mixture of the
environment presenting events (60_exceptions.md R172) and the block performing them. -/
inductive Reachable (c : Config) : State → Prop where
  | powerOn (draw : Nat) : Reachable c (State.powerOn c draw)
  | present (s : State) (inp : Input) : Reachable c s → Reachable c (s.present inp)
  | step (s t : State) : Reachable c s → step s = .next t → Reachable c t

/-- Edges with their times, as presented events (30_encoding.md R61). -/
def edgeInputs (edges : List (Bool × Nat)) : List Input := edges.map (fun e => inputOf (.edge e.1) e.2)

/-- Whether a presented word is a POLL or a DECODE. -/
def Input.isPollOrDecode (inp : Input) : Bool :=
  match decodeWord inp.word with
  | .ok i    => i == .poll || i == .decode
  | .error _ => false

/-- Whether a presented word is legal (30_encoding.md R67). -/
def Input.isLegal (inp : Input) : Bool :=
  match decodeWord inp.word with
  | .ok _    => true
  | .error _ => false

/-! ## States no event tells apart -/

/-- The same state but for `LAST_ACTIVITY`, which must agree while bits are held (10_state.md R31). -/
def Indistinguishable (s t : State) : Prop :=
  t = { s with lastActivity := t.lastActivity } ∧ (0 < s.bitCount → t.lastActivity = s.lastActivity)

/-- Two outcomes of the same kind: next states that `rel` relates, or the same reason to stop. -/
def SameOutcome (rel : State → State → Prop) (a b : Host.Outcome State Fault Refusal) : Prop :=
  match a, b with
  | .next s,    .next t    => rel s t
  | .fault x,   .fault y   => x = y
  | .refused x, .refused y => x = y
  | _, _ => False

end Sys2Proof.Machine
end

