-- ==== Sys2Proof/Certificates/Slice0/Obligations.lean ====
section
/-! DEFINITION. The statements for the provers. -/

section

open Sys2Proof Sys2Proof.Machine

/-! ## Event words -/

/-- Words written out from 30_encoding.md R66 and 95_test_vectors.md 2.1 (V-X1 to V-X12) decode as the spec says. -/
def Obligations.SpecWordsDecodeAsListed : Prop :=
  decodeWord 0x1000#16 = .ok .edge0 ∧ decodeWord 0x1001#16 = .ok .edge1 ∧ decodeWord 0x2000#16 = .ok .poll ∧
  decodeWord 0x3000#16 = .ok (.take 0) ∧ decodeWord 0x3008#16 = .ok (.take 8) ∧
  decodeWord 0x30FF#16 = .ok (.take 255) ∧ decodeWord 0x4000#16 = .ok .reset ∧ decodeWord 0x5000#16 = .ok .decode ∧
  decodeWord 0x1002#16 = .error .edgeArg ∧ decodeWord 0x2001#16 = .error .commandArg ∧
  decodeWord 0x3121#16 = .error .reservedZ ∧ decodeWord 0x0000#16 = .error .reservedOp ∧
  decodeWord 0x6000#16 = .error .reservedOp ∧ decodeWord 0xF000#16 = .error .reservedOp

/-- Every event, with every `maxBytes`, decodes back from its word; so it does from its table word. -/
def Obligations.DecodeOfEncodeIsTheEvent : Prop :=
  ∀ i : Instr, decodeWord (encode i) = .ok i ∧ decodeTableWord 16 (encode i).toNat = some i

/-- A legal word is the word of the event it decodes to, so each event has one word. -/
def Obligations.LegalWordIsTheWordOfItsEvent : Prop :=
  ∀ (w : Word) (i : Instr), decodeWord w = .ok i → w = encode i

/-- 30_encoding.md R66: the six rows, each by its own match and mask; a word matches exactly one of them or is illegal. -/
def Obligations.WordMatchesExactlyOneRowOrIsIllegal : Prop :=
  ∀ w : Word,
    (w &&& 0xFFFF#16 = 0x1000#16 → decodeWord w = .ok .edge0) ∧
    (w &&& 0xFFFF#16 = 0x1001#16 → decodeWord w = .ok .edge1) ∧
    (w &&& 0xFFFF#16 = 0x2000#16 → decodeWord w = .ok .poll) ∧
    (w &&& 0xFF00#16 = 0x3000#16 → decodeWord w = .ok (.take (BitVec.ofNat 8 w.toNat))) ∧
    (w &&& 0xFFFF#16 = 0x4000#16 → decodeWord w = .ok .reset) ∧
    (w &&& 0xFFFF#16 = 0x5000#16 → decodeWord w = .ok .decode) ∧
    ((eventRows.countP (fun r => r.covers w) = 1 ∧ ∃ i, decodeWord w = .ok i) ∨
     (eventRows.countP (fun r => r.covers w) = 0 ∧ ∃ why, decodeWord w = .error why))

/-- The words that match no row are exactly those 30_encoding.md R67 lists, read off the number of the word, and they are the
illegal ones; presented to the block, such a word is refused, whatever the state. That it is refused also where its time is
below its predecessor's, and that the refusal carries the word and a reason, is the model's choice (log 11). -/
def Obligations.IllegalWordsAreTheListedOnesAndAreRefused : Prop :=
  (∀ w : Word, (∃ why, decodeWord w = .error why) ↔
    (w.toNat / 2 ^ 12 = 0 ∨ 6 ≤ w.toNat / 2 ^ 12 ∨
     w.toNat / 2 ^ 8 % 16 ≠ 0 ∨
     (w.toNat / 2 ^ 12 = 1 ∧ w.toNat % 2 ^ 8 / 2 ≠ 0) ∨
     ((w.toNat / 2 ^ 12 = 2 ∨ w.toNat / 2 ^ 12 = 4 ∨ w.toNat / 2 ^ 12 = 5) ∧ w.toNat % 2 ^ 8 ≠ 0))) ∧
  (∀ w : Word, (∃ why, decodeWord w = .error why) ↔ ∀ r ∈ eventRows, w &&& r.mask ≠ r.pattern) ∧
  (∃ why, decodeWord 0x0000#16 = .error why) ∧
  (∀ (s : State) (inp : Input) (rest : List Input) (why : Illegal), s.pending = inp :: rest →
    decodeWord inp.word = .error why → step s = .refused (.illegalWord inp.word why))

/-- Wherever in a run an illegal word comes to be performed, the run answers its refusal and no state, however many more steps are
asked for (60_exceptions.md R164). That it is refused also where its time is below its predecessor's, and what the refusal carries,
is the model's choice (log 11). -/
def Obligations.RefusalIsNeverCleared : Prop :=
  ∀ (s₀ s : State) (inp : Input) (rest : List Input) (why : Illegal) (j k : Nat), run j s₀ = .next s →
    s.pending = inp :: rest → decodeWord inp.word = .error why →
    run (j + (k + 1)) s₀ = .refused (.illegalWord inp.word why)

/-- 30_encoding.md R65: `maxBytes` is the low 8 bits of the word, unscaled; the edge bit is bit 0 of the word; a presented DECODE
takes both operands whole from its ports, whatever stood there before. -/
def Obligations.OperandsComeFromWordAndPorts : Prop :=
  (∀ (w : Word) (m : BitVec 8), decodeWord w = .ok (.take m) → maxBytesValue m = w.toNat % 2 ^ 8) ∧
  (∀ (w : Word) (i : Instr) (b : Bool), decodeWord w = .ok i → i.edgeBit = some b →
    b = w.getLsbD 0 ∧ edgeBitOfWord w = b) ∧
  (∀ (s : State) (inp : Input) (rest : List Input), s.pending = inp :: rest → decodeWord inp.word = .ok .decode →
    s.now ≤ inp.now → inp.fits s.config = true →
    ∃ t, step s = .next t ∧ t.trace =
      { event := .decode, now := inp.now, operands := some { n := inp.decN, raw := inp.decRaw },
        response := .decoded (decodeFields s.config inp.decN inp.decRaw) } :: s.trace)

/-! ## Steps -/

/-- A step on a presented legal event that keeps time is the event's meaning at the state in which it is sampled: the event
taken off, its time and operand ports in place. The width clause on the raw operand is the model's (log 6). -/
def Obligations.StepPerformsTheDecodedEvent : Prop :=
  ∀ (s : State) (inp : Input) (rest : List Input) (i : Instr),
    s.pending = inp :: rest → decodeWord inp.word = .ok i → s.now ≤ inp.now →
    ∃ u : State, step s = exec i u ∧
      u.config = s.config ∧ u.frameBytes = s.frameBytes ∧ u.bitCount = s.bitCount ∧ u.lastActivity = s.lastActivity ∧
      u.now = inp.now ∧ u.decN = inp.decN ∧ (inp.fits s.config = true → u.decRaw = inp.decRaw) ∧
      u.pending = rest ∧ u.trace = s.trace

/-- 10_state.md R23, 60_exceptions.md R172: an event whose time is below its predecessor's has no move, and that is the only
way a step faults. The fault's name is the model's (log 5). -/
def Obligations.OnlyAnEarlierTimeHasNoMove : Prop :=
  ∀ (s : State) (f : Fault),
    step s = .fault f ↔
      ∃ (inp : Input) (rest : List Input), s.pending = inp :: rest ∧ inp.isLegal = true ∧ inp.now < s.now ∧
        f = .clockSteppedBack s.now inp.now

/-- 60_exceptions.md R160: in any state, with any operand, every event answers a next state. -/
def Obligations.NoEventRaisesAnException : Prop :=
  ∀ (i : Instr) (s : State), ∃ t, exec i s = .next t

/-- Legal events at non-decreasing times all run, in the order presented, one observation each (20_memory.md R48;
60_exceptions.md R168, R173). Any order of simultaneous events meets the hypotheses, so each is admitted. -/
def Obligations.LegalEventsRunInTheirOrder : Prop :=
  ∀ s : State, s.pending.all Input.isLegal = true → orderedFrom s.now s.pending = true →
    ∃ t, run s.pending.length s = .next t ∧ t.pending = [] ∧
      t.trace.length = s.pending.length + s.trace.length ∧
      (t.trace.take s.pending.length).map (fun o => (encode o.event, o.now)) =
        (s.pending.map (fun inp => (inp.word, inp.now))).reverse

/-! ## EDGE0 and EDGE1 -/

/-- 40_edge_sink.md R81, all of EDGE(b): below capacity the target byte becomes `((byte << 1) | b)[7:0]` and the count goes up
by one; at capacity neither changes; the time is recorded always; the response is none; every other byte and everything
outside the block is as before. -/
def Obligations.EdgeAppendsItsBitOrDropsItAtCapacity : Prop :=
  ∀ (b : Bool) (s : State), ∃ t, exec (.edge b) s = .next t ∧ Responds (.edge b) .none s t ∧
    t.lastActivity = s.now ∧
    (s.bitCount < s.config.maxBits →
      t.bitCount = s.bitCount + 1 ∧
      (t.frameBytes.read (targetByte s.bitCount)).toNat =
        (2 * (s.frameBytes.read (targetByte s.bitCount)).toNat + b.toNat) % 2 ^ 8 ∧
      ∀ k, k ≠ targetByte s.bitCount → t.frameBytes.read k = s.frameBytes.read k) ∧
    (s.config.maxBits ≤ s.bitCount →
      t.bitCount = s.bitCount ∧ ∀ k, t.frameBytes.read k = s.frameBytes.read k)

/-- The target byte an edge writes is storage, and holds fewer than 8 bits, so the shift discards no 1 (40_edge_sink.md R80,
R83; 10_state.md R24). -/
def Obligations.EdgeShiftsNoBitOut : Prop :=
  ∀ s : State, s.Inv → s.bitCount < s.config.maxBits →
    targetByte s.bitCount < s.config.capBytes ∧ (s.frameBytes.read (targetByte s.bitCount)).toNat < 2 ^ 7

/-- 40_edge_sink.md R85: `n` edges and nothing else between them count up to capacity, the last one's time stands, and no byte
outside the buffer is written. -/
def Obligations.EdgesCountUpToCapacity : Prop :=
  ∀ (s : State) (edges : List (Bool × Nat)) (last : Bool × Nat) (rest : List Input),
    s.pending = edgeInputs (edges ++ [last]) ++ rest → orderedFrom s.now (edgeInputs (edges ++ [last])) = true →
    s.bitCount ≤ s.config.maxBits →
    ∃ t, run (edges.length + 1) s = .next t ∧ t.pending = rest ∧
      t.bitCount = min (s.bitCount + (edges.length + 1)) s.config.maxBits ∧
      t.lastActivity = last.2 ∧
      ∀ k, s.config.capBytes ≤ k → t.frameBytes.read k = s.frameBytes.read k

/-! ## Invariants -/

/-- Every step keeps the invariant: storage canonical and in range, the bytes holding exactly the frame the observation of the
run gives, and `LAST_ACTIVITY` the time of the latest edge while bits are held. -/
def Obligations.StepKeepsTheInvariant : Prop :=
  ∀ s t : State, s.Inv → step s = .next t → t.Inv

/-- The invariant holds after power-on, for every parameter record and every draw of `LAST_ACTIVITY`, so at reset. -/
def Obligations.InvariantHoldsAtPowerOn : Prop :=
  (∀ (c : Config) (draw : Nat), (State.powerOn c draw).Inv) ∧ State.reset.Inv

/-- Storage stays canonical and in range and the count within capacity at every step, whatever the frame is taken to be
(10_state.md R21; 40_edge_sink.md R85). -/
def Obligations.StepKeepsStorageCanonicalAndInRange : Prop :=
  ∀ s t : State, s.frameBytes.wf = true → s.frameBytes.inRange s.config.capBytes = true →
    s.bitCount ≤ s.config.maxBits → step s = .next t →
    t.frameBytes.wf = true ∧ t.frameBytes.inRange t.config.capBytes = true ∧ t.bitCount ≤ t.config.maxBits

/-- 10_state.md R24, its four items, in every reachable state: `N` is the count, and the frame's bits are those of the accepted
edges since the last RESET or successful TAKE. -/
def Obligations.ReachableBytesHoldTheFrame : Prop :=
  ∀ (c : Config) (s : State), Reachable c s →
    s.bitCount = (frameOf c s.trace).length ∧
    s.bitCount ≤ c.maxBits ∧
    (∀ k, k < s.bitCount / 8 → ∀ j, j < 8 →
      (s.frameBytes.read k).getLsbD (7 - j) = frameBit (frameOf c s.trace) (8 * k + j)) ∧
    (s.bitCount / 8 < c.capBytes →
      (s.frameBytes.read (s.bitCount / 8)).toNat < 2 ^ (s.bitCount % 8) ∧
      ∀ j, j < s.bitCount % 8 → (s.frameBytes.read (s.bitCount / 8)).getLsbD (s.bitCount % 8 - 1 - j) =
        frameBit (frameOf c s.trace) (8 * (s.bitCount / 8) + j)) ∧
    (∀ k, s.bitCount / 8 < k → k < c.capBytes → s.frameBytes.read k = 0x00)

/-- 10_state.md R31, R23: while a reachable state holds bits, `LAST_ACTIVITY` is the time of the latest edge and not after the
latest event, so the idle subtraction never runs below 0. -/
def Obligations.HeldBitsCarryTheLatestEdgeTime : Prop :=
  ∀ (c : Config) (s : State), Reachable c s → 0 < s.bitCount →
    lastEdgeTime s.trace = some s.lastActivity ∧ s.lastActivity ≤ s.now

/-- In every reachable state each edge of the run is in exactly one place: handed out in the bytes of one TAKE, lost to a TAKE whose
`maxBytes` was too small, dropped at capacity, discarded by a RESET, or in the frame in progress (41_frame_reader.md R105, R109;
70_reset_and_hazards.md R184, R191; 90_conflicts.md C6). -/
def Obligations.EveryEdgeIsAccountedForOnce : Prop :=
  ∀ (c : Config) (s : State), Reachable c s →
    edgeCount s.trace = copiedBits s.trace + shortTakeBits s.trace + droppedBits c s.trace + discardedBits c s.trace + s.bitCount

/-- From every state that meets the invariant and accounts for its edges, a step gives a state that accounts for them: no event
loses a bit in any other way, and none is counted twice (41_frame_reader.md R105, R109; 70_reset_and_hazards.md R184, R191;
90_conflicts.md C6). -/
def Obligations.StepKeepsEveryEdgeAccountedFor : Prop :=
  ∀ s t : State, s.Inv → s.Accounted → step s = .next t → t.Accounted

/-- The parameters never change (10_state.md R27), time never runs back, and a step observes at most one event, at its own
time, leaving the earlier observation as it was. -/
def Obligations.StepKeepsParametersTimeAndPast : Prop :=
  ∀ s t : State, step s = .next t →
    t.config = s.config ∧ s.now ≤ t.now ∧
    (t = s ∨ ∃ o : Observation, t.trace = o :: s.trace ∧ o.now = t.now)

/-- Which events write which field (10_state.md R20, R21, R22; 20_memory.md R40): `LAST_ACTIVITY` only edges, and every edge;
the count only edges, TAKE and RESET; a byte only TAKE and RESET, and of an edge only the target byte. -/
def Obligations.OnlyTheseEventsWriteEachField : Prop :=
  ∀ (i : Instr) (s t : State), exec i s = .next t →
    (i.edgeBit.isSome = true → t.lastActivity = s.now) ∧
    (i.edgeBit = none → t.lastActivity = s.lastActivity) ∧
    (t.bitCount ≠ s.bitCount → i.edgeBit.isSome = true ∨ (∃ m, i = .take m) ∨ i = .reset) ∧
    (∀ k, t.frameBytes.read k ≠ s.frameBytes.read k →
      (i.edgeBit.isSome = true ∧ k = targetByte s.bitCount) ∨ (∃ m, i = .take m) ∨ i = .reset)

/-! ## POLL -/

/-- 10_state.md R30 and 41_frame_reader.md R100: POLL responds the count exactly when bits are held and more than the threshold
has elapsed since `LAST_ACTIVITY`, else 0, and writes nothing. -/
def Obligations.PollRespondsTheCountExactlyWhenReady : Prop :=
  ∀ s : State, ∃ t, exec .poll s = .next t ∧ SameBlock s t ∧
    (0 < s.bitCount → s.lastActivity + s.config.idleThreshold < s.now → Responds .poll (.count s.bitCount) s t) ∧
    (s.bitCount = 0 ∨ s.now ≤ s.lastActivity + s.config.idleThreshold → Responds .poll (.count 0) s t)

/-- Two POLLs at the same time with nothing between respond alike (20_memory.md R46). -/
def Obligations.PollIsIdempotent : Prop :=
  ∀ s : State, ∃ t u r, exec .poll s = .next t ∧ exec .poll t = .next u ∧
    Responds .poll r s t ∧ Responds .poll r t u ∧ SameBlock s u

/-! ## TAKE and RESET -/

/-- 60_exceptions.md R163: with no frame ready TAKE responds (0, []) and POLL responds 0; neither changes the block. -/
def Obligations.NoFrameReadyIsAZeroLengthResult : Prop :=
  ∀ (m : BitVec 8) (s : State),
    s.bitCount = 0 ∨ s.now ≤ s.lastActivity + s.config.idleThreshold →
    (∃ t, exec (.take m) s = .next t ∧ Responds (.take m) (.frame 0 []) s t ∧ SameBlock s t) ∧
    (∃ t, exec .poll s = .next t ∧ Responds .poll (.count 0) s t ∧ SameBlock s t)

/-- 41_frame_reader.md R105 with R42 of 20_memory.md: a ready TAKE responds the full count and the first
`min(floor(N/8)+1, maxBytes)` bytes, the byte at index CAP_BYTES as 0x00, and clears the buffer whatever `maxBytes` is. -/
def Obligations.ReadyTakeReturnsTheFrameAndClears : Prop :=
  ∀ (m : BitVec 8) (s : State), 0 < s.bitCount → s.lastActivity + s.config.idleThreshold < s.now →
    ∃ t bytes, exec (.take m) s = .next t ∧ Responds (.take m) (.frame s.bitCount bytes) s t ∧
      bytes.length = min (s.bitCount / 8 + 1) m.toNat ∧
      (∀ j, j < bytes.length →
        bytes[j]? = some (if j < s.config.capBytes then s.frameBytes.read j else 0x00)) ∧
      Cleared s t

/-- 41_frame_reader.md R104: the last byte of a ready TAKE that reaches index `floor(N/8)`: 0x00 when `N` is a multiple of 8,
else the partial byte, its `N mod 8` bits right-aligned. -/
def Obligations.LastByteIsZeroOrThePartialByte : Prop :=
  ∀ (m : BitVec 8) (s : State) (f : List Bool), s.Holds f → 0 < f.length →
    s.lastActivity + s.config.idleThreshold < s.now → f.length / 8 < m.toNat →
    ∃ t bytes last, exec (.take m) s = .next t ∧ Responds (.take m) (.frame f.length bytes) s t ∧
      bytes.length = f.length / 8 + 1 ∧ bytes[f.length / 8]? = some last ∧
      (f.length % 8 = 0 → last = 0x00) ∧
      (f.length % 8 ≠ 0 → last.toNat < 2 ^ (f.length % 8) ∧
        ∀ j, j < f.length % 8 → last.getLsbD (f.length % 8 - 1 - j) = frameBit f (8 * (f.length / 8) + j))

/-- 41_frame_reader.md R110: after a TAKE that returned a frame, and any events that are no edges, a TAKE responds (0, []) and a
POLL responds 0, at any time. -/
def Obligations.TakenFrameIsGoneUntilTheNextEdge : Prop :=
  ∀ (m m' : BitVec 8) (s t u : State) (later : List Input) (k : Nat) (time : Nat), 0 < s.bitCount →
    s.lastActivity + s.config.idleThreshold < s.now → exec (.take m) s = .next t →
    (∀ inp ∈ later, ∀ i, decodeWord inp.word = .ok i → i.edgeBit = none) →
    run k (t.withPending later) = .next u →
    (∃ v, exec (.take m') (u.withNow time) = .next v ∧
      Responds (.take m') (.frame 0 []) (u.withNow time) v ∧ SameBlock u v) ∧
    (∃ v, exec .poll (u.withNow time) = .next v ∧ Responds .poll (.count 0) (u.withNow time) v)

/-- RESET clears the buffer in every state and responds nothing (41_frame_reader.md R107, R108). -/
def Obligations.ResetEventClearsTheBuffer : Prop :=
  ∀ s : State, ∃ t, exec .reset s = .next t ∧ Responds .reset .none s t ∧ Cleared s t

/-- 10_state.md R28: after power-on every byte is 0x00, the count 0 and `LAST_ACTIVITY` any number; after a RESET event and after
a successful TAKE every byte is 0x00, the count 0 and `LAST_ACTIVITY` unchanged. -/
def Obligations.PowerOnResetAndTakeLeaveAnEmptyBuffer : Prop :=
  (∀ (c : Config) (draw : Nat), (State.powerOn c draw).config = c ∧ (State.powerOn c draw).bitCount = 0 ∧
    (State.powerOn c draw).lastActivity = draw ∧ ∀ k, (State.powerOn c draw).frameBytes.read k = 0x00) ∧
  (State.reset.config = Config.default ∧ ∃ draw, State.reset = State.powerOn Config.default draw) ∧
  (∀ s t : State, exec .reset s = .next t → Cleared s t) ∧
  (∀ (m : BitVec 8) (s t : State) (n : Nat) (bytes : List Byte), exec (.take m) s = .next t → 0 < n →
    Responds (.take m) (.frame n bytes) s t → Cleared s t)

/-! ## The frame's value -/

/-- FrameValue is below `2^N` on any bytes, and reads nothing beyond the bytes the frame fills (42_field_decoder.md R130). -/
def Obligations.FrameValueIsBelowItsLengthAndIgnoresTheRest : Prop :=
  ∀ (n : Nat) (bytes extra : List Byte), frameValue n bytes < 2 ^ n ∧
    (n ≤ 8 * bytes.length → frameValue n (bytes ++ extra) = frameValue n bytes)

/-- 42_field_decoder.md R131: FrameValue of the bytes a TAKE returns is the frame's value, the bits of the bytes not returned
reading as 0; with `maxBytes ≥ floor(N/8)+1` it is the whole value. -/
def Obligations.FrameValueOfTakenBytesIsTheRawValue : Prop :=
  ∀ (m : BitVec 8) (s : State) (f : List Bool), s.Holds f → 0 < f.length →
    s.lastActivity + s.config.idleThreshold < s.now →
    ∃ t bytes, exec (.take m) s = .next t ∧ Responds (.take m) (.frame f.length bytes) s t ∧
      frameValue f.length bytes = rawValueOf (f.mapIdx (fun i b => b && decide (i < 8 * m.toNat))) ∧
      (f.length / 8 + 1 ≤ m.toNat → frameValue f.length bytes = rawValueOf f)

/-- 40_edge_sink.md R86: edges from an empty buffer, within capacity, leave their packing, and after the silence a TAKE with room
returns bytes whose FrameValue is their value. -/
def Obligations.EdgesThenTakeSpellTheirValue : Prop :=
  ∀ (s : State) (edges : List (Bool × Nat)) (last : Bool × Nat) (m : BitVec 8) (time : Nat),
    s.bitCount = 0 → (∀ k, k < s.config.capBytes → s.frameBytes.read k = 0x00) →
    s.pending = edgeInputs (edges ++ [last]) ++ [inputOf (.take m) time] →
    orderedFrom s.now s.pending = true → edges.length + 1 ≤ s.config.maxBits →
    last.2 + s.config.idleThreshold < time → (edges.length + 1) / 8 + 1 ≤ m.toNat →
    ∃ t u bytes, run (edges.length + 1) s = .next t ∧ t.Holds ((edges ++ [last]).map Prod.fst) ∧
      run (edges.length + 2) s = .next u ∧
      (∃ o older, u.trace = o :: older ∧ o.event = .take m ∧ o.response = .frame (edges.length + 1) bytes) ∧
      frameValue (edges.length + 1) bytes = rawValueOf ((edges ++ [last]).map Prod.fst)

/-- A card presented to an empty block at default parameters, then the consumer's READ: the last event observed is the decoded
card, with its facility and card codes (30_encoding.md R71; 42_field_decoder.md R134, R135; 60_exceptions.md R170). -/
def Obligations.PresentedCardIsDecoded : Prop :=
  ∀ (draw t0 dt time : Nat) (n v : Nat) (m : BitVec 8) (facBits : Nat), (n = 26 ∧ facBits = 8) ∨ (n = 34 ∧ facBits = 16) →
    v < 2 ^ n → t0 + (n - 1) * dt + 4000000 < time → n / 8 + 1 ≤ m.toNat →
    ∃ t u, run n ((State.powerOn Config.default draw).withPending (frameEvents t0 dt n v)) = .next t ∧
      run 2 (t.withPending (readEvents t time m)) = .next u ∧ u.bitCount = 0 ∧ u.pending = [] ∧
      ∃ o older, u.trace = o :: older ∧ o.event = .decode ∧
        o.response = .decoded
          { bitCount := BitVec.ofNat 9 n, rawValue := v,
            facilityCode := some (v / 2 ^ 17 % 2 ^ facBits), cardCode := some (v / 2 % 2 ^ 16),
            combinedValue := some (BitVec.ofNat 64 (v / 2 ^ 17 % 2 ^ facBits * 100000 + v / 2 % 2 ^ 16)) }

/-- The byte-packed block does what the block over bits does, event by event: the same response, and the bytes hold the same
frame after as the bits say (20_memory.md R41; 40_edge_sink.md R86; 41_frame_reader.md R102, R107). -/
def Obligations.BytesRefineTheBlockOverBits : Prop :=
  ∀ (i : Instr) (s : State) (f : List Bool), s.Holds f →
    ∃ t, exec i s = .next t ∧
      Responds i (BitBlock.perform s.config { bits := f, last := s.lastActivity } s.now s.decN s.decRaw i).2 s t ∧
      t.Holds (BitBlock.perform s.config { bits := f, last := s.lastActivity } s.now s.decN s.decRaw i).1.bits ∧
      t.lastActivity = (BitBlock.perform s.config { bits := f, last := s.lastActivity } s.now s.decN s.decRaw i).1.last

/-! ## DECODE -/

/-- DECODE of a recognized length (42_field_decoder.md R132, R133, R137): the fields by the entry's shifts and masks and the
combined value exact, in 64 bits. Where the exact value does not fit 64 bits the combined value is some value the model leaves
free (log 8) and all else is as stated. The block is untouched. -/
def Obligations.DecodeOfARecognizedLengthExtractsItsFields : Prop :=
  ∀ (s : State) (e : Format), s.config.legal = true → e ∈ s.config.formats → e.len = s.decN.toNat →
    ∃ t comb, exec .decode s = .next t ∧ SameBlock s t ∧
      Responds .decode (.decoded
        { bitCount := s.decN, rawValue := s.decRaw,
          facilityCode := some ((s.decRaw >>> e.facShift) &&& e.facMask),
          cardCode := some ((s.decRaw >>> e.cardShift) &&& e.cardMask),
          combinedValue := some comb }) s t ∧
      (((s.decRaw >>> e.facShift) &&& e.facMask) * s.config.combineMult +
          ((s.decRaw >>> e.cardShift) &&& e.cardMask) < 2 ^ 64 →
        comb.toNat = ((s.decRaw >>> e.facShift) &&& e.facMask) * s.config.combineMult +
          ((s.decRaw >>> e.cardShift) &&& e.cardMask))

/-- 60_exceptions.md R162: DECODE of a bit count not in FORMATS responds the raw value with the three fields absent, and touches
nothing. -/
def Obligations.DecodeOfAnUnrecognizedLengthIsRawOnly : Prop :=
  ∀ s : State, (∀ e ∈ s.config.formats, e.len ≠ s.decN.toNat) →
    ∃ t, exec .decode s = .next t ∧ SameBlock s t ∧
      Responds .decode (.decoded
        { bitCount := s.decN, rawValue := s.decRaw, facilityCode := none, cardCode := none,
          combinedValue := none }) s t

/-- 42_field_decoder.md R133: with the default table a bit count is recognized exactly when it is 26 or 34; with any table
exactly when it is the length of an entry. -/
def Obligations.RecognizedLengthsAreThoseOfTheTable : Prop :=
  (∀ (c : Config) (n : BitVec 9) (raw : Nat),
    ((decodeFields c n raw).facilityCode.isSome = true ↔ ∃ e ∈ c.formats, e.len = n.toNat) ∧
    ((decodeFields c n raw).cardCode.isSome = true ↔ ∃ e ∈ c.formats, e.len = n.toNat) ∧
    ((decodeFields c n raw).combinedValue.isSome = true ↔ ∃ e ∈ c.formats, e.len = n.toNat)) ∧
  (∀ (n : BitVec 9) (raw : Nat),
    (decodeFields Config.default n raw).facilityCode.isSome = true ↔ n.toNat = 26 ∨ n.toNat = 34) ∧
  (∀ (c : Config) (e e' : Format), c.legal = true → e ∈ c.formats → e' ∈ c.formats → e.len = e'.len → e = e')

/-- 42_field_decoder.md R134 and R135: the two default formats as shifts and masks, as bit ranges of `raw` (bits 32:17 or 24:17,
and bits 16:1), and as bits of the frame, first-received highest. -/
def Obligations.DefaultFormatsReadTheirBitRanges : Prop :=
  (∀ raw : Nat,
    (decodeFields Config.default 34 raw).facilityCode = some ((raw >>> 17) &&& 0xFFFF) ∧
    (decodeFields Config.default 34 raw).cardCode = some ((raw >>> 1) &&& 0xFFFF) ∧
    (decodeFields Config.default 26 raw).facilityCode = some ((raw >>> 17) &&& 0xFF) ∧
    (decodeFields Config.default 26 raw).cardCode = some ((raw >>> 1) &&& 0xFFFF)) ∧
  (∀ raw : Nat,
    (decodeFields Config.default 34 raw).facilityCode = some (raw / 2 ^ 17 % 2 ^ 16) ∧
    (decodeFields Config.default 34 raw).cardCode = some (raw / 2 % 2 ^ 16) ∧
    (decodeFields Config.default 26 raw).facilityCode = some (raw / 2 ^ 17 % 2 ^ 8) ∧
    (decodeFields Config.default 26 raw).cardCode = some (raw / 2 % 2 ^ 16)) ∧
  (∀ f : List Bool, f.length = 34 →
    (decodeFields Config.default 34 (rawValueOf f)).facilityCode = some (rawValueOf ((f.drop 1).take 16)) ∧
    (decodeFields Config.default 34 (rawValueOf f)).cardCode = some (rawValueOf ((f.drop 17).take 16))) ∧
  (∀ f : List Bool, f.length = 26 →
    (decodeFields Config.default 26 (rawValueOf f)).facilityCode = some (rawValueOf ((f.drop 1).take 8)) ∧
    (decodeFields Config.default 26 (rawValueOf f)).cardCode = some (rawValueOf ((f.drop 9).take 16)))

/-- 42_field_decoder.md R138: where `cardMask < COMBINE_MULT`, the fields are the quotient and remainder of the combined value.
The 64-bit premise is the width of the result (R137); both default formats meet both premises. -/
def Obligations.CombinedValueGivesItsFieldsBack : Prop :=
  (∀ (c : Config) (e : Format) (n : BitVec 9) (raw : Nat), c.legal = true → e ∈ c.formats → e.len = n.toNat →
    e.cardMask < c.combineMult → e.facMask * c.combineMult + e.cardMask < 2 ^ 64 →
    ∃ comb : BitVec 64, (decodeFields c n raw).combinedValue = some comb ∧
      (decodeFields c n raw).cardCode = some (comb.toNat % c.combineMult) ∧
      (decodeFields c n raw).facilityCode = some (comb.toNat / c.combineMult)) ∧
  (∀ e ∈ Config.default.formats, e.cardMask < Config.default.combineMult ∧
    e.facMask * Config.default.combineMult + e.cardMask < 2 ^ 64)

/-- At default parameters every combined value is at most 6,553,565,535, which the 34-bit frame of ones reaches
(70_reset_and_hazards.md R189). -/
def Obligations.DefaultCombinedValueIsAtMost6553565535 : Prop :=
  (∀ (n : BitVec 9) (raw : Nat) (comb : BitVec 64),
    (decodeFields Config.default n raw).combinedValue = some comb → comb.toNat ≤ 6553565535) ∧
  (decodeFields Config.default 34 0x3FFFFFFFF).combinedValue = some 6553565535#64

/-- No parity is checked: for the default formats two raw values that agree on bits `n-2 : 1` decode to the same fields, whatever
bit 0, bit `n-1` and the bits above are (42_field_decoder.md R139). -/
def Obligations.EndBitsReachNoField : Prop :=
  ∀ (n : BitVec 9) (raw raw' : Nat), n.toNat = 26 ∨ n.toNat = 34 →
    (∀ j, 1 ≤ j → j ≤ n.toNat - 2 → raw.testBit j = raw'.testBit j) →
    (decodeFields Config.default n raw).facilityCode = (decodeFields Config.default n raw').facilityCode ∧
    (decodeFields Config.default n raw).cardCode = (decodeFields Config.default n raw').cardCode ∧
    (decodeFields Config.default n raw).combinedValue = (decodeFields Config.default n raw').combinedValue

/-- 42_field_decoder.md R140: DECODE responds its two operands unchanged, for every bit count. -/
def Obligations.DecodePassesItsOperandsThrough : Prop :=
  ∀ s : State, ∃ t ev, exec .decode s = .next t ∧ Responds .decode (.decoded ev) s t ∧
    ev.rawValue = s.decRaw ∧ ev.bitCount = s.decN

/-- 42_field_decoder.md R141: under the same parameters the same operands give the same response, whatever the block's state and
the time. -/
def Obligations.DecodeDependsOnItsOperandsAlone : Prop :=
  ∀ s s' : State, s.config = s'.config → s.decN = s'.decN → s.decRaw = s'.decRaw →
    ∃ t t' r, exec .decode s = .next t ∧ exec .decode s' = .next t' ∧
      Responds .decode r s t ∧ Responds .decode r s' t'

/-! ## Nat, order and what no event can tell -/

/-- 41_frame_reader.md R111: from an empty buffer, while every gap is at most the threshold POLL and TAKE find no frame from the
first edge on until the threshold has passed after the last; after that POLL responds the full count, capped. Every stretch of
edges meets the hypotheses, so the first clause speaks of every time between the first edge and the last. -/
def Obligations.GapsWithinTheThresholdHoldTheFrame : Prop :=
  ∀ (s : State) (edges : List (Bool × Nat)) (last : Bool × Nat) (rest : List Input),
    s.config.legal = true → s.bitCount = 0 → s.pending = edgeInputs (edges ++ [last]) ++ rest →
    orderedFrom s.now (edgeInputs (edges ++ [last])) = true →
    ((edges ++ [last]).map Prod.snd).IsChain (fun a b => b ≤ a + s.config.idleThreshold) →
    (∀ j t, j ≤ edges.length → run (j + 1) s = .next t →
      ∀ (m : BitVec 8) (time : Nat), t.now ≤ time →
        (∀ e, (edges ++ [last])[j + 1]? = some e → time ≤ e.2) → time ≤ last.2 + s.config.idleThreshold →
        (∃ u, exec .poll (t.withNow time) = .next u ∧ Responds .poll (.count 0) (t.withNow time) u) ∧
        (∃ u, exec (.take m) (t.withNow time) = .next u ∧
          Responds (.take m) (.frame 0 []) (t.withNow time) u)) ∧
    (∃ t, run (edges.length + 1) s = .next t ∧ t.pending = rest ∧
      ∀ time : Nat, last.2 + s.config.idleThreshold < time →
        ∃ u, exec .poll (t.withNow time) = .next u ∧
          Responds .poll (.count (min (edges.length + 1) s.config.maxBits)) (t.withNow time) u)

/-- An edge and a TAKE presented together on a ready frame `f` below capacity, in both orders (60_exceptions.md R166; 20_memory.md
R50; 70_reset_and_hazards.md R187). TAKE first: it responds `f` in the bytes as stored, and the edge's bit is the whole of the next
frame. Edge first: its bit joins `f` and the TAKE finds no frame ready. -/
def Obligations.EdgeRacingATakeIsInExactlyOneFrame : Prop :=
  ∀ (s : State) (f : List Bool) (b : Bool) (m : BitVec 8) (time : Nat) (rest : List Input),
    s.Holds f → 0 < f.length → f.length < s.config.maxBits → s.now ≤ time →
    s.lastActivity + s.config.idleThreshold < time →
    (∃ t bytes, run 2 (s.withPending (inputOf (.take m) time :: inputOf (.edge b) time :: rest)) = .next t ∧
      t.pending = rest ∧ t.Holds [b] ∧ t.lastActivity = time ∧
      (∀ k, s.config.capBytes ≤ k → t.frameBytes.read k = s.frameBytes.read k) ∧
      (t.trace.map Observation.response).take 2 = [.none, .frame f.length bytes] ∧
      bytes.length = min (f.length / 8 + 1) m.toNat ∧
      ∀ j, j < bytes.length → bytes[j]? = some (s.frameBytes.read j)) ∧
    (∃ t, run 2 (s.withPending (inputOf (.edge b) time :: inputOf (.take m) time :: rest)) = .next t ∧
      t.pending = rest ∧ t.Holds (f ++ [b]) ∧ t.lastActivity = time ∧
      (∀ k, s.config.capBytes ≤ k → t.frameBytes.read k = s.frameBytes.read k) ∧
      (t.trace.map Observation.response).take 2 = [.frame 0 [], .none])

/-- The same race on a full buffer (60_exceptions.md R161, R166). TAKE first: it responds the full frame, the byte at index CAP_BYTES
as 0x00, and the edge's bit is the whole of the next frame. Edge first: its bit is dropped, the frame stays as it was, and the TAKE
finds it not ready, since the dropped edge recorded its time. -/
def Obligations.EdgeRacingATakeOnAFullBufferIsNextOrDropped : Prop :=
  ∀ (s : State) (f : List Bool) (b : Bool) (m : BitVec 8) (time : Nat) (rest : List Input),
    s.config.legal = true → s.Holds f → f.length = s.config.maxBits → s.now ≤ time →
    s.lastActivity + s.config.idleThreshold < time →
    (∃ t bytes, run 2 (s.withPending (inputOf (.take m) time :: inputOf (.edge b) time :: rest)) = .next t ∧
      t.pending = rest ∧ t.Holds [b] ∧ t.lastActivity = time ∧
      (∀ k, s.config.capBytes ≤ k → t.frameBytes.read k = s.frameBytes.read k) ∧
      (t.trace.map Observation.response).take 2 = [.none, .frame s.config.maxBits bytes] ∧
      bytes.length = min (s.config.capBytes + 1) m.toNat ∧
      ∀ j, j < bytes.length → bytes[j]? = some (if j < s.config.capBytes then s.frameBytes.read j else 0x00)) ∧
    (∃ t, run 2 (s.withPending (inputOf (.edge b) time :: inputOf (.take m) time :: rest)) = .next t ∧
      t.pending = rest ∧ t.Holds f ∧ t.lastActivity = time ∧
      (∀ k, t.frameBytes.read k = s.frameBytes.read k) ∧
      (t.trace.map Observation.response).take 2 = [.frame 0 [], .none])

/-- A frame that was ready and not taken grows with the next edge and is ready no more until the threshold has passed again
(70_reset_and_hazards.md R185). -/
def Obligations.LateConsumerMergesFrames : Prop :=
  ∀ (s : State) (b : Bool), s.bitCount < s.config.maxBits →
    ∃ t, exec (.edge b) s = .next t ∧ ∀ time : Nat, s.now ≤ time →
      ∃ u, exec .poll (t.withNow time) = .next u ∧
        (time ≤ s.now + s.config.idleThreshold → Responds .poll (.count 0) (t.withNow time) u) ∧
        (s.now + s.config.idleThreshold < time → Responds .poll (.count (s.bitCount + 1)) (t.withNow time) u)

/-- 10_state.md R31 and 70_reset_and_hazards.md R181: two states that differ only in `LAST_ACTIVITY` while no bit is held are told
apart by no number of steps on any events: the same responses, the same stops. So no statement about responses rests on the
reset value the model chose for it (log 1). -/
def Obligations.UnheldLastActivityIsNeverObserved : Prop :=
  ∀ (s t : State) (k : Nat), Indistinguishable s t → SameOutcome Indistinguishable (run k s) (run k t)

/-- POLL and DECODE leave nothing behind (20_memory.md R46; 41_frame_reader.md R101; 42_field_decoder.md R132): leaving every one
of them out of what is presented, the run ends with the same bytes, count and last activity. -/
def Obligations.PollAndDecodeLeaveTheBlockAsIfNeverIssued : Prop :=
  ∀ s t : State, run s.pending.length s = .next t →
    ∃ u, run (s.pending.filter (fun inp => !inp.isPollOrDecode)).length
        (s.withPending (s.pending.filter (fun inp => !inp.isPollOrDecode))) = .next u ∧
      u.frameBytes = t.frameBytes ∧ u.bitCount = t.bitCount ∧ u.lastActivity = t.lastActivity

/-- Responses are kept nowhere in the block (10_state.md R32): whatever was observed before, a step does the same and observes the
same. -/
def Obligations.ObservationsAreNeverRead : Prop :=
  ∀ (s : State) (other : List Observation),
    (∀ t, step s = .next t → ∃ new, t.trace = new ++ s.trace ∧
      step (s.withTrace other) = .next (t.withTrace (new ++ other))) ∧
    (∀ f, step s = .fault f → step (s.withTrace other) = .fault f) ∧
    (∀ r, step s = .refused r → step (s.withTrace other) = .refused r)

end
end

