-- ==== Sys2Proof/Laws/Bits.lean ====
section
/-! SUPPORT. Laws of the frame as bits: its value grows at the low end as bits arrive, splits where the frame splits, has the
first-received bit highest, and each stored byte is the value of its eight bits or fewer. -/

namespace Sys2Proof.Machine

@[simp] theorem rawValueOf_nil : rawValueOf [] = 0 := rfl

theorem frameBit_append_left (f g : List Bool) (i : Nat) (h : i < f.length) : frameBit (f ++ g) i = frameBit f i := by
  simp [frameBit, List.getD_eq_getElem?_getD, List.getElem?_append_left h]

theorem frameBit_append_right (f g : List Bool) (i : Nat) : frameBit (f ++ g) (f.length + i) = frameBit g i := by
  simp [frameBit, List.getD_eq_getElem?_getD, List.getElem?_append_right]

/-- Splitting a frame splits its value, first part high. -/
theorem rawValueOf_append (f g : List Bool) : rawValueOf (f ++ g) = rawValueOf f * 2 ^ g.length + rawValueOf g := by
  simp only [rawValueOf, List.length_append]
  rw [Finset.sum_range_add, Finset.sum_mul]
  congr 1
  · apply Finset.sum_congr rfl
    intro i hi
    have hi := Finset.mem_range.mp hi
    rw [frameBit_append_left f g i hi, mul_assoc, ← pow_add]
    congr 2
    omega
  · apply Finset.sum_congr rfl
    intro i _
    rw [frameBit_append_right]
    congr 2
    omega

@[simp] theorem rawValueOf_singleton (b : Bool) : rawValueOf [b] = b.toNat := by
  simp [rawValueOf, frameBit]

/-- A bit received last is the lowest. -/
theorem rawValueOf_concat (f : List Bool) (b : Bool) : rawValueOf (f ++ [b]) = 2 * rawValueOf f + b.toNat := by
  rw [rawValueOf_append, rawValueOf_singleton, List.length_singleton, pow_one, Nat.mul_comm]

/-- A frame of `N` bits has a value below `2^N`. -/
theorem rawValueOf_lt (f : List Bool) : rawValueOf f < 2 ^ f.length := by
  induction f using List.reverseRecOn with
  | nil => simp
  | append_singleton f b ih =>
    rw [rawValueOf_concat, List.length_append, List.length_singleton, pow_succ]
    have := Bool.toNat_lt b
    omega

/-- Bit `f_i` is bit `N-1-i` of the value: the first bit received is the highest (00_scope.md R13). -/
theorem rawValueOf_testBit (f : List Bool) (i : Nat) (h : i < f.length) :
    (rawValueOf f).testBit (f.length - 1 - i) = frameBit f i := by
  induction f using List.reverseRecOn with
  | nil => simp at h
  | append_singleton f b ih =>
    rw [rawValueOf_concat]
    simp only [List.length_append, List.length_singleton] at h ⊢
    by_cases hi : i < f.length
    · have hs : f.length + 1 - 1 - i = (f.length - 1 - i) + 1 := by omega
      rw [hs, frameBit_append_left f [b] i hi, ← ih hi, Nat.testBit_succ]
      congr 1
      have := Bool.toNat_lt b
      omega
    · have hi : i = f.length + 0 := by omega
      rw [hi, frameBit_append_right]
      cases b <;> simp [frameBit, Nat.testBit_zero]

/-- A number below `2^N` whose bits are the frame's is the frame's value. -/
theorem eq_rawValueOf {v : Nat} {f : List Bool} (hv : v < 2 ^ f.length)
    (hb : ∀ j, j < f.length → v.testBit (f.length - 1 - j) = frameBit f j) : v = rawValueOf f := by
  apply Nat.eq_of_testBit_eq
  intro i
  rcases Nat.lt_or_ge i f.length with h | h
  · have hi : i = f.length - 1 - (f.length - 1 - i) := by omega
    rw [hi, hb _ (by omega), rawValueOf_testBit _ _ (by omega)]
  · rw [Nat.testBit_lt_two_pow (lt_of_lt_of_le hv (Nat.pow_le_pow_right (by norm_num) h)),
      Nat.testBit_lt_two_pow (lt_of_lt_of_le (rawValueOf_lt f) (Nat.pow_le_pow_right (by norm_num) h))]

/-- The bits of byte `k` of a frame. -/
def chunk (f : List Bool) (k : Nat) : List Bool := (f.drop (8 * k)).take 8

theorem length_chunk (f : List Bool) (k : Nat) : (chunk f k).length = min 8 (f.length - 8 * k) := by
  simp [chunk]

theorem frameBit_chunk (f : List Bool) (k j : Nat) (h : j < 8) : frameBit (chunk f k) j = frameBit f (8 * k + j) := by
  simp [chunk, frameBit, List.getD_eq_getElem?_getD, h, List.getElem?_drop]

/-- Holding a frame is holding, in each byte, the value of that byte's bits (20_memory.md R41 in one equation). -/
theorem State.holds_iff_chunks (s : State) (f : List Bool) : s.Holds f ↔
    s.bitCount = f.length ∧ f.length ≤ s.config.maxBits ∧
    ∀ k, k < s.config.capBytes → (s.frameBytes.read k).toNat = rawValueOf (chunk f k) := by
  have hmax : s.config.maxBits = 8 * s.config.capBytes := rfl
  constructor
  · intro h
    refine ⟨h.count, h.within, fun k hk => ?_⟩
    rcases Nat.lt_trichotomy k (f.length / 8) with hq | hq | hq
    · have hl : (chunk f k).length = 8 := by rw [length_chunk]; omega
      apply eq_rawValueOf
      · rw [hl]; exact (s.frameBytes.read k).isLt
      · intro j hj
        rw [hl] at hj ⊢
        rw [frameBit_chunk f k j hj, ← h.full k j hq hj]
        rfl
    · subst hq
      have hl : (chunk f (f.length / 8)).length = f.length % 8 := by rw [length_chunk]; omega
      apply eq_rawValueOf
      · rw [hl]; exact h.small hk
      · intro j hj
        rw [hl] at hj ⊢
        rw [frameBit_chunk f _ j (by omega), ← h.partly hk j hj]
        rfl
    · have hl : chunk f k = [] := by
        apply List.eq_nil_of_length_eq_zero
        rw [length_chunk]; omega
      rw [hl, h.beyond k hq hk]
      rfl
  · rintro ⟨hc, hw, hb⟩
    refine ⟨hc, hw, fun k j hk hj => ?_, fun hq => ?_, fun hq j hj => ?_, fun k hq hk => ?_⟩
    · have hl : (chunk f k).length = 8 := by rw [length_chunk]; omega
      have := rawValueOf_testBit (chunk f k) j (by omega)
      rw [hl, ← hb k (by omega), frameBit_chunk f k j hj] at this
      exact this
    · rw [hb _ hq]
      have := rawValueOf_lt (chunk f (f.length / 8))
      rw [length_chunk] at this
      exact lt_of_lt_of_le this (Nat.pow_le_pow_right (by norm_num) (by omega))
    · have hl : (chunk f (f.length / 8)).length = f.length % 8 := by rw [length_chunk]; omega
      have := rawValueOf_testBit (chunk f (f.length / 8)) j (by omega)
      rw [hl, ← hb _ hq, frameBit_chunk f _ j (by omega)] at this
      exact this
    · have hl : chunk f k = [] := by
        apply List.eq_nil_of_length_eq_zero
        rw [length_chunk]; omega
      have := hb k hk
      rw [hl] at this
      exact BitVec.eq_of_toNat_eq this

end Sys2Proof.Machine
end

