-- ==== Sys2Proof/Laws/Decode.lean ====
section
/-! SUPPORT. Laws of the event map: a row covers a word exactly when the word's fields are the row's, and no word has two
rows. -/

namespace Sys2Proof

theorem and_full_mask (w : Word) : w &&& 0xFFFF#16 = w := by
  apply BitVec.eq_of_getLsbD_eq
  intro i hi
  interval_cases i <;> simp

theorem and_high_mask_iff (w : Word) : w &&& 0xFF00#16 = 0x3000#16 ↔ w.toNat / 2 ^ 8 = 0x30 := by
  have hsplit : (w &&& 0xFF00#16).toNat = w.toNat / 2 ^ 8 * 2 ^ 8 := by
    have hlt : w.toNat < 2 ^ 16 := w.isLt
    rw [BitVec.toNat_and]
    apply Nat.eq_of_testBit_eq
    intro i
    rw [Nat.testBit_and, Nat.testBit_mul_two_pow, Nat.testBit_div_two_pow]
    rcases Nat.lt_or_ge i 16 with h | h
    · interval_cases i <;> simp <;> (intro _; decide)
    · rw [Nat.testBit_lt_two_pow (lt_of_lt_of_le hlt (Nat.pow_le_pow_right (by norm_num) h))]
      rw [Nat.testBit_lt_two_pow (lt_of_lt_of_le hlt (Nat.pow_le_pow_right (by norm_num) (by omega)))]
      simp
  rw [← BitVec.toNat_inj, hsplit]
  constructor
  · intro h
    have : w.toNat / 2 ^ 8 * 2 ^ 8 = 0x30 * 2 ^ 8 := by simpa using h
    exact Nat.eq_of_mul_eq_mul_right (by norm_num) this
  · intro h
    rw [h]
    rfl

/-- The decoder as a test of the word itself, row by row. -/
theorem decodeWord_eq (w : Word) : decodeWord w =
    if w = 0x1000#16 then .ok .edge0 else if w = 0x1001#16 then .ok .edge1 else if w = 0x2000#16 then .ok .poll
    else if w.toNat / 2 ^ 8 = 0x30 then .ok (.take (argField w)) else if w = 0x4000#16 then .ok .reset
    else if w = 0x5000#16 then .ok .decode else .error (illegality w) := by
  by_cases h1 : w = 0x1000#16
  · subst h1; rfl
  by_cases h2 : w = 0x1001#16
  · subst h2; rfl
  by_cases h3 : w = 0x2000#16
  · subst h3; rfl
  by_cases h4 : w = 0x4000#16
  · subst h4; rfl
  by_cases h5 : w = 0x5000#16
  · subst h5; rfl
  by_cases h6 : w.toNat / 2 ^ 8 = 0x30
  · rw [if_neg h1, if_neg h2, if_neg h3, if_pos h6]
    have h6' := (and_high_mask_iff w).mpr h6
    simp [decodeWord, eventRows, EventRow.covers, and_full_mask, h1, h2, h3, h6']
  · rw [if_neg h1, if_neg h2, if_neg h3, if_neg h6, if_neg h4, if_neg h5]
    have h6' := mt (and_high_mask_iff w).mp h6
    simp [decodeWord, eventRows, EventRow.covers, and_full_mask, h1, h2, h3, h4, h5, h6']

/-- No two rows cover one word. -/
theorem eventRows_disjoint :
    eventRows.Pairwise (fun r r' => r.pattern &&& r'.mask ≠ r'.pattern &&& r.mask) := by
  simp [eventRows]

/-- `ARG` as a number. -/
theorem argField_toNat (w : Word) : (argField w).toNat = w.toNat % 2 ^ 8 := by
  simp [argField, BitVec.extractLsb'_toNat]

/-- The word of a TAKE as a number. -/
theorem encode_take_toNat (m : BitVec 8) : (encode (.take m)).toNat = 0x3000 + m.toNat := by
  have hm := m.isLt
  have h : (0x3000 : Nat) ||| m.toNat = 0x3000 + m.toNat := by
    have := Nat.two_pow_add_eq_or_of_lt (i := 8) (b := m.toNat) (by omega) 0x30
    simpa using this.symm
  have hz : m.toNat % 2 ^ 16 = m.toNat := Nat.mod_eq_of_lt (by omega)
  simp only [encode, BitVec.toNat_or, BitVec.zeroExtend, BitVec.toNat_setWidth, hz]
  simpa using h

end Sys2Proof
end

