-- ==== Sys2Proof/Laws/Memory.lean ====
section
/-! SUPPORT. The laws of storage: what a read gives after a write or a clearing, and that both keep the canonical form and the
range. -/

namespace Sys2Proof.Machine

@[simp] theorem Memory.read_nil (k : Nat) : Memory.read [] k = 0x00 := rfl

/-- Removing the cells of other indices leaves a read alone. -/
theorem Memory.read_filter (p : Nat → Bool) (m : Memory) (k : Nat) :
    Memory.read (m.filter (fun c => p c.1)) k = if p k = true then Memory.read m k else 0x00 := by
  induction m with
  | nil => by_cases h : p k = true <;> simp
  | cons c rest ih =>
    obtain ⟨a, v⟩ := c
    by_cases ha : p a = true
    · by_cases hk : a = k
      · subst hk
        simp [ha, Memory.read]
      · simp [ha, Memory.read, hk, ih]
    · by_cases hk : a = k
      · subst hk
        simp [ha, ih]
      · simp [ha, Memory.read, hk, ih]

theorem Memory.read_insert (k j : Nat) (v : Byte) (m : Memory) (h : ∀ c ∈ m, c.1 ≠ k) :
    Memory.read (Memory.insert (k, v) m) j = if k = j then v else Memory.read m j := by
  induction m with
  | nil => simp [Memory.insert, Memory.read, Memory.unlisted]
  | cons c rest ih =>
    obtain ⟨a, w⟩ := c
    have hne : a ≠ k := h (a, w) (by simp)
    have hrest : ∀ c ∈ rest, c.1 ≠ k := fun c hc => h c (by simp [hc])
    by_cases hlt : k < a
    · simp [Memory.insert, hlt, Memory.read]
    · by_cases haj : a = j
      · subst haj
        simp [Memory.insert, hlt, Memory.read, Ne.symm hne]
      · simp [Memory.insert, hlt, Memory.read, haj, ih hrest]

/-- A read after a write gives the value written at that index and what was there at every other. -/
@[simp] theorem Memory.read_write (m : Memory) (k j : Nat) (v : Byte) :
    Memory.read (m.write k v) j = if k = j then v else Memory.read m j := by
  have hfilter := Memory.read_filter (fun i => i != k) m j
  by_cases hv : v = Memory.unlisted
  · simp only [Memory.write, if_pos hv, hfilter]
    by_cases hj : k = j
    · simp [hj, hv, Memory.unlisted]
    · simp [hj, Ne.symm hj]
  · rw [Memory.write, if_neg hv, Memory.read_insert _ _ _ _ (by simp), hfilter]
    by_cases hj : k = j
    · simp [hj]
    · simp [hj, Ne.symm hj]

/-- A read after a clearing gives 0x00 below the bound and what was there above it. -/
@[simp] theorem Memory.read_clearBelow (m : Memory) (cap j : Nat) :
    Memory.read (m.clearBelow cap) j = if j < cap then 0x00 else Memory.read m j := by
  rw [Memory.clearBelow, Memory.read_filter (fun i => decide (cap ≤ i))]
  by_cases h : j < cap
  · simp [h]
  · simp [h, Nat.not_lt.mp h]

theorem Memory.wf_iff (m : Memory) : m.wf = true ↔
    (m.map Prod.fst).Pairwise (· < ·) ∧ ∀ c ∈ m, c.2 ≠ Memory.unlisted := by
  simp [Memory.wf]

theorem Memory.inRange_iff (cap : Nat) (m : Memory) : m.inRange cap = true ↔ ∀ c ∈ m, c.1 < cap := by
  simp [Memory.inRange]

theorem Memory.wf_filter (p : Host.Cell → Bool) (m : Memory) (h : m.wf = true) : Memory.wf (m.filter p) = true := by
  rw [Memory.wf_iff] at h ⊢
  exact ⟨h.1.sublist (List.filter_sublist.map _), fun c hc => h.2 c (List.mem_of_mem_filter hc)⟩

theorem Memory.mem_insert (x : Host.Cell) (m : Memory) (c : Host.Cell) :
    c ∈ Memory.insert x m ↔ c = x ∨ c ∈ m := by
  induction m with
  | nil => simp [Memory.insert]
  | cons d rest ih =>
    by_cases h : x.1 < d.1
    · simp [Memory.insert, h]
    · simp only [Memory.insert, h, if_false, List.mem_cons, ih]
      tauto

theorem Memory.wf_insert (x : Host.Cell) (m : Memory) (h : m.wf = true) (hv : x.2 ≠ Memory.unlisted)
    (hk : ∀ c ∈ m, c.1 ≠ x.1) : Memory.wf (Memory.insert x m) = true := by
  rw [Memory.wf_iff] at h ⊢
  refine ⟨?_, fun c hc => ?_⟩
  · induction m with
    | nil => simp [Memory.insert]
    | cons d rest ih =>
      have hd := List.pairwise_cons.mp (by simpa using h.1 : ((d.1 :: rest.map Prod.fst).Pairwise (· < ·)))
      by_cases hlt : x.1 < d.1
      · simp only [Memory.insert, hlt, if_true, List.map_cons]
        refine List.pairwise_cons.mpr ⟨fun a ha => ?_, by simpa using h.1⟩
        rcases List.mem_cons.mp ha with rfl | ha
        · exact hlt
        · exact lt_trans hlt (hd.1 a ha)
      · simp only [Memory.insert, hlt, if_false, List.map_cons]
        have hne := hk d (by simp)
        refine List.pairwise_cons.mpr ⟨fun a ha => ?_, ih ⟨hd.2, fun c hc => h.2 c (by simp [hc])⟩
          (fun c hc => hk c (by simp [hc]))⟩
        obtain ⟨c, hc, rfl⟩ := List.mem_map.mp ha
        rcases (Memory.mem_insert x rest c).mp hc with rfl | hc
        · omega
        · exact hd.1 _ (List.mem_map_of_mem hc)
  · rcases (Memory.mem_insert x m c).mp hc with rfl | hc
    · exact hv
    · exact h.2 c hc

/-- A write keeps the canonical form. -/
theorem Memory.wf_write (m : Memory) (k : Nat) (v : Byte) (h : m.wf = true) : Memory.wf (m.write k v) = true := by
  by_cases hv : v = Memory.unlisted
  · rw [Memory.write, if_pos hv]
    exact Memory.wf_filter _ m h
  · rw [Memory.write, if_neg hv]
    exact Memory.wf_insert _ _ (Memory.wf_filter _ m h) hv (by simp)

/-- A clearing keeps the canonical form. -/
theorem Memory.wf_clearBelow (m : Memory) (cap : Nat) (h : m.wf = true) : Memory.wf (m.clearBelow cap) = true :=
  Memory.wf_filter _ m h

theorem Memory.inRange_write (m : Memory) (cap k : Nat) (v : Byte) (h : m.inRange cap = true) (hk : k < cap) :
    Memory.inRange cap (m.write k v) = true := by
  rw [Memory.inRange_iff] at h ⊢
  intro c hc
  by_cases hv : v = Memory.unlisted
  · rw [Memory.write, if_pos hv] at hc
    exact h c (List.mem_of_mem_filter hc)
  · rw [Memory.write, if_neg hv, Memory.mem_insert] at hc
    rcases hc with rfl | hc
    · exact hk
    · exact h c (List.mem_of_mem_filter hc)

theorem Memory.inRange_clearBelow (m : Memory) (cap : Nat) (h : m.inRange cap = true) :
    Memory.inRange cap (m.clearBelow cap) = true := by
  rw [Memory.inRange_iff] at h ⊢
  exact fun c hc => h c (List.mem_of_mem_filter hc)

theorem Memory.read_of_inRange (m : Memory) (cap k : Nat) (h : m.inRange cap = true) (hk : cap ≤ k) :
    Memory.read m k = 0x00 := by
  rw [Memory.inRange_iff] at h
  induction m with
  | nil => rfl
  | cons c rest ih =>
    obtain ⟨a, v⟩ := c
    have ha : a < cap := h (a, v) (by simp)
    have : a ≠ k := by omega
    simp [Memory.read, this, ih (fun c hc => h c (by simp [hc]))]

/-- Storage in canonical form is determined by its reads. -/
theorem Memory.ext_of_wf (m m' : Memory) (h : m.wf = true) (h' : m'.wf = true)
    (hr : ∀ k, Memory.read m k = Memory.read m' k) : m = m' := by
  rw [Memory.wf_iff] at h h'
  have absent : ∀ (l : Memory) (k : Nat), (∀ c ∈ l, c.1 ≠ k) → Memory.read l k = Memory.unlisted := by
    intro l k hl
    induction l with
    | nil => rfl
    | cons c rest ih =>
      obtain ⟨a, v⟩ := c
      have ha : a ≠ k := hl (a, v) (by simp)
      simp [Memory.read, ha, ih (fun c hc => hl c (by simp [hc]))]
  have above : ∀ (c : Host.Cell) (l : Memory), ((c :: l).map Prod.fst).Pairwise (· < ·) → ∀ d ∈ l, c.1 < d.1 := by
    intro c l hp d hd
    rw [List.map_cons, List.pairwise_cons] at hp
    exact hp.1 _ (List.mem_map_of_mem hd)
  induction m generalizing m' with
  | nil =>
    cases m' with
    | nil => rfl
    | cons d rest =>
      obtain ⟨b, w⟩ := d
      have := hr b
      simp [Memory.read] at this
      exact absurd this.symm (h'.2 (b, w) (by simp))
  | cons c rest ih =>
    obtain ⟨a, v⟩ := c
    cases m' with
    | nil =>
      have := hr a
      simp [Memory.read] at this
      exact absurd this (h.2 (a, v) (by simp))
    | cons d rest' =>
      obtain ⟨b, w⟩ := d
      have hva := h.2 (a, v) (by simp)
      have hwb := h'.2 (b, w) (by simp)
      have ab : a = b := by
        rcases lt_trichotomy a b with hlt | heq | hgt
        · have := hr a
          rw [absent ((b, w) :: rest') a (fun d hd => ?_)] at this
          · simp [Memory.read] at this
            exact absurd this hva
          · rcases List.mem_cons.mp hd with rfl | hd
            · exact Nat.ne_of_gt hlt
            · have := above _ _ h'.1 d hd
              simp at this
              omega
        · exact heq
        · have := hr b
          rw [absent ((a, v) :: rest) b (fun d hd => ?_)] at this
          · simp [Memory.read] at this
            exact absurd this.symm hwb
          · rcases List.mem_cons.mp hd with rfl | hd
            · exact Nat.ne_of_gt hgt
            · have := above _ _ h.1 d hd
              simp at this
              omega
      subst ab
      have vw : v = w := by simpa [Memory.read] using hr a
      subst vw
      congr 1
      rw [List.map_cons, List.pairwise_cons] at h h'
      refine ih rest' ⟨h.1.2, fun c hc => h.2 c (by simp [hc])⟩ ⟨h'.1.2, fun c hc => h'.2 c (by simp [hc])⟩ (fun k => ?_)
      by_cases hk : a = k
      · subst hk
        rw [absent rest a (fun c hc => (Nat.ne_of_gt (h.1.1 c.1 (List.mem_map_of_mem hc)))),
          absent rest' a (fun c hc => (Nat.ne_of_gt (h'.1.1 c.1 (List.mem_map_of_mem hc))))]
      · have := hr k
        simpa [Memory.read, hk] using this

end Sys2Proof.Machine
end

