-- ==== Sys2Proof/Laws/State.lean ====
section
/-! SUPPORT. One lemma per field per named update of the state, each true by rfl. -/

namespace Sys2Proof.Machine

/-! ### appendBit -/

@[simp] theorem State.appendBit_config (s : State) (b : Bool) :
    (s.appendBit b).config = s.config := rfl
@[simp] theorem State.appendBit_frameBytes (s : State) (b : Bool) :
    (s.appendBit b).frameBytes = s.frameBytes.write (targetByte s.bitCount) (shiftIn (s.frameBytes.read (targetByte s.bitCount)) b) := rfl
@[simp] theorem State.appendBit_bitCount (s : State) (b : Bool) :
    (s.appendBit b).bitCount = s.bitCount + 1 := rfl
@[simp] theorem State.appendBit_lastActivity (s : State) (b : Bool) :
    (s.appendBit b).lastActivity = s.lastActivity := rfl
@[simp] theorem State.appendBit_now (s : State) (b : Bool) :
    (s.appendBit b).now = s.now := rfl
@[simp] theorem State.appendBit_decN (s : State) (b : Bool) :
    (s.appendBit b).decN = s.decN := rfl
@[simp] theorem State.appendBit_decRaw (s : State) (b : Bool) :
    (s.appendBit b).decRaw = s.decRaw := rfl
@[simp] theorem State.appendBit_pending (s : State) (b : Bool) :
    (s.appendBit b).pending = s.pending := rfl
@[simp] theorem State.appendBit_trace (s : State) (b : Bool) :
    (s.appendBit b).trace = s.trace := rfl

/-! ### touch -/

@[simp] theorem State.touch_config (s : State) :
    s.touch.config = s.config := rfl
@[simp] theorem State.touch_frameBytes (s : State) :
    s.touch.frameBytes = s.frameBytes := rfl
@[simp] theorem State.touch_bitCount (s : State) :
    s.touch.bitCount = s.bitCount := rfl
@[simp] theorem State.touch_lastActivity (s : State) :
    s.touch.lastActivity = s.now := rfl
@[simp] theorem State.touch_now (s : State) :
    s.touch.now = s.now := rfl
@[simp] theorem State.touch_decN (s : State) :
    s.touch.decN = s.decN := rfl
@[simp] theorem State.touch_decRaw (s : State) :
    s.touch.decRaw = s.decRaw := rfl
@[simp] theorem State.touch_pending (s : State) :
    s.touch.pending = s.pending := rfl
@[simp] theorem State.touch_trace (s : State) :
    s.touch.trace = s.trace := rfl

/-! ### clearFrame -/

@[simp] theorem State.clearFrame_config (s : State) :
    s.clearFrame.config = s.config := rfl
@[simp] theorem State.clearFrame_frameBytes (s : State) :
    s.clearFrame.frameBytes = s.frameBytes.clearBelow s.config.capBytes := rfl
@[simp] theorem State.clearFrame_bitCount (s : State) :
    s.clearFrame.bitCount = 0 := rfl
@[simp] theorem State.clearFrame_lastActivity (s : State) :
    s.clearFrame.lastActivity = s.lastActivity := rfl
@[simp] theorem State.clearFrame_now (s : State) :
    s.clearFrame.now = s.now := rfl
@[simp] theorem State.clearFrame_decN (s : State) :
    s.clearFrame.decN = s.decN := rfl
@[simp] theorem State.clearFrame_decRaw (s : State) :
    s.clearFrame.decRaw = s.decRaw := rfl
@[simp] theorem State.clearFrame_pending (s : State) :
    s.clearFrame.pending = s.pending := rfl
@[simp] theorem State.clearFrame_trace (s : State) :
    s.clearFrame.trace = s.trace := rfl

/-! ### respond -/

@[simp] theorem State.respond_config (s : State) (i : Instr) (r : Response) :
    (s.respond i r).config = s.config := rfl
@[simp] theorem State.respond_frameBytes (s : State) (i : Instr) (r : Response) :
    (s.respond i r).frameBytes = s.frameBytes := rfl
@[simp] theorem State.respond_bitCount (s : State) (i : Instr) (r : Response) :
    (s.respond i r).bitCount = s.bitCount := rfl
@[simp] theorem State.respond_lastActivity (s : State) (i : Instr) (r : Response) :
    (s.respond i r).lastActivity = s.lastActivity := rfl
@[simp] theorem State.respond_now (s : State) (i : Instr) (r : Response) :
    (s.respond i r).now = s.now := rfl
@[simp] theorem State.respond_decN (s : State) (i : Instr) (r : Response) :
    (s.respond i r).decN = s.decN := rfl
@[simp] theorem State.respond_decRaw (s : State) (i : Instr) (r : Response) :
    (s.respond i r).decRaw = s.decRaw := rfl
@[simp] theorem State.respond_pending (s : State) (i : Instr) (r : Response) :
    (s.respond i r).pending = s.pending := rfl
@[simp] theorem State.respond_trace (s : State) (i : Instr) (r : Response) :
    (s.respond i r).trace = { event := i, now := s.now, operands := s.operandsOf i, response := r } :: s.trace := rfl

/-! ### sample -/

@[simp] theorem State.sample_config (s : State) (inp : Input) (rest : List Input) :
    (s.sample inp rest).config = s.config := rfl
@[simp] theorem State.sample_frameBytes (s : State) (inp : Input) (rest : List Input) :
    (s.sample inp rest).frameBytes = s.frameBytes := rfl
@[simp] theorem State.sample_bitCount (s : State) (inp : Input) (rest : List Input) :
    (s.sample inp rest).bitCount = s.bitCount := rfl
@[simp] theorem State.sample_lastActivity (s : State) (inp : Input) (rest : List Input) :
    (s.sample inp rest).lastActivity = s.lastActivity := rfl
@[simp] theorem State.sample_now (s : State) (inp : Input) (rest : List Input) :
    (s.sample inp rest).now = inp.now := rfl
@[simp] theorem State.sample_decN (s : State) (inp : Input) (rest : List Input) :
    (s.sample inp rest).decN = inp.decN := rfl
@[simp] theorem State.sample_decRaw (s : State) (inp : Input) (rest : List Input) :
    (s.sample inp rest).decRaw = inp.decRaw % 2 ^ s.config.maxBits := rfl
@[simp] theorem State.sample_pending (s : State) (inp : Input) (rest : List Input) :
    (s.sample inp rest).pending = rest := rfl
@[simp] theorem State.sample_trace (s : State) (inp : Input) (rest : List Input) :
    (s.sample inp rest).trace = s.trace := rfl

/-! ### present -/

@[simp] theorem State.present_config (s : State) (inp : Input) :
    (s.present inp).config = s.config := rfl
@[simp] theorem State.present_frameBytes (s : State) (inp : Input) :
    (s.present inp).frameBytes = s.frameBytes := rfl
@[simp] theorem State.present_bitCount (s : State) (inp : Input) :
    (s.present inp).bitCount = s.bitCount := rfl
@[simp] theorem State.present_lastActivity (s : State) (inp : Input) :
    (s.present inp).lastActivity = s.lastActivity := rfl
@[simp] theorem State.present_now (s : State) (inp : Input) :
    (s.present inp).now = s.now := rfl
@[simp] theorem State.present_decN (s : State) (inp : Input) :
    (s.present inp).decN = s.decN := rfl
@[simp] theorem State.present_decRaw (s : State) (inp : Input) :
    (s.present inp).decRaw = s.decRaw := rfl
@[simp] theorem State.present_pending (s : State) (inp : Input) :
    (s.present inp).pending = s.pending ++ [inp] := rfl
@[simp] theorem State.present_trace (s : State) (inp : Input) :
    (s.present inp).trace = s.trace := rfl

/-! ### presentNext -/

@[simp] theorem State.presentNext_config (s : State) (w : Word) :
    (s.presentNext w).config = s.config := rfl
@[simp] theorem State.presentNext_frameBytes (s : State) (w : Word) :
    (s.presentNext w).frameBytes = s.frameBytes := rfl
@[simp] theorem State.presentNext_bitCount (s : State) (w : Word) :
    (s.presentNext w).bitCount = s.bitCount := rfl
@[simp] theorem State.presentNext_lastActivity (s : State) (w : Word) :
    (s.presentNext w).lastActivity = s.lastActivity := rfl
@[simp] theorem State.presentNext_now (s : State) (w : Word) :
    (s.presentNext w).now = s.now := rfl
@[simp] theorem State.presentNext_decN (s : State) (w : Word) :
    (s.presentNext w).decN = s.decN := rfl
@[simp] theorem State.presentNext_decRaw (s : State) (w : Word) :
    (s.presentNext w).decRaw = s.decRaw := rfl
@[simp] theorem State.presentNext_pending (s : State) (w : Word) :
    (s.presentNext w).pending = { word := w, now := s.now, decN := s.decN, decRaw := s.decRaw } :: s.pending := rfl
@[simp] theorem State.presentNext_trace (s : State) (w : Word) :
    (s.presentNext w).trace = s.trace := rfl

/-! ### powerOn -/

@[simp] theorem State.powerOn_config (c : Config) (draw : Nat) :
    (State.powerOn c draw).config = c := rfl
@[simp] theorem State.powerOn_frameBytes (c : Config) (draw : Nat) :
    (State.powerOn c draw).frameBytes = [] := rfl
@[simp] theorem State.powerOn_bitCount (c : Config) (draw : Nat) :
    (State.powerOn c draw).bitCount = 0 := rfl
@[simp] theorem State.powerOn_lastActivity (c : Config) (draw : Nat) :
    (State.powerOn c draw).lastActivity = draw := rfl
@[simp] theorem State.powerOn_now (c : Config) (draw : Nat) :
    (State.powerOn c draw).now = 0 := rfl
@[simp] theorem State.powerOn_decN (c : Config) (draw : Nat) :
    (State.powerOn c draw).decN = 0 := rfl
@[simp] theorem State.powerOn_decRaw (c : Config) (draw : Nat) :
    (State.powerOn c draw).decRaw = 0 := rfl
@[simp] theorem State.powerOn_pending (c : Config) (draw : Nat) :
    (State.powerOn c draw).pending = [] := rfl
@[simp] theorem State.powerOn_trace (c : Config) (draw : Nat) :
    (State.powerOn c draw).trace = [] := rfl

end Sys2Proof.Machine
end

