-- ==== Sys2Proof/Laws/Ops.lean ====
section
/-! SUPPORT. One lemma per shared operation and per step: everything it can do, cited in place of its definition. -/

namespace Sys2Proof.Machine

/-- PollValue as the ready condition of 10_state.md R30, without the subtraction. -/
theorem State.pollValue_eq (s : State) (now : Nat) : s.pollValue now =
    if 0 < s.bitCount ∧ s.lastActivity + s.config.idleThreshold < now then s.bitCount else 0 := by
  unfold State.pollValue
  split_ifs <;> omega

theorem State.pollValue_eq_zero_iff (s : State) (now : Nat) :
    s.pollValue now = 0 ↔ s.bitCount = 0 ∨ now ≤ s.lastActivity + s.config.idleThreshold := by
  rw [State.pollValue_eq]
  split_ifs <;> omega

theorem State.pollValue_of_ready (s : State) (now : Nat) (h : 0 < s.bitCount)
    (ht : s.lastActivity + s.config.idleThreshold < now) : s.pollValue now = s.bitCount := by
  rw [State.pollValue_eq, if_pos ⟨h, ht⟩]

/-- The stored condition and PollValue agree (10_state.md R30). -/
theorem State.ready_iff (s : State) (now : Nat) : s.ready now = true ↔ s.pollValue now ≠ 0 := by
  rw [Ne, State.pollValue_eq_zero_iff]
  simp only [State.ready, Bool.and_eq_true, decide_eq_true_eq]
  omega

@[simp] theorem State.edge_config (s : State) (b : Bool) : (s.edge b).config = s.config := by
  unfold State.edge; split_ifs <;> rfl
@[simp] theorem State.edge_now (s : State) (b : Bool) : (s.edge b).now = s.now := by
  unfold State.edge; split_ifs <;> rfl
@[simp] theorem State.edge_decN (s : State) (b : Bool) : (s.edge b).decN = s.decN := by
  unfold State.edge; split_ifs <;> rfl
@[simp] theorem State.edge_decRaw (s : State) (b : Bool) : (s.edge b).decRaw = s.decRaw := by
  unfold State.edge; split_ifs <;> rfl
@[simp] theorem State.edge_pending (s : State) (b : Bool) : (s.edge b).pending = s.pending := by
  unfold State.edge; split_ifs <;> rfl
@[simp] theorem State.edge_trace (s : State) (b : Bool) : (s.edge b).trace = s.trace := by
  unfold State.edge; split_ifs <;> rfl
@[simp] theorem State.edge_lastActivity (s : State) (b : Bool) : (s.edge b).lastActivity = s.now := by
  unfold State.edge; split_ifs <;> rfl

theorem State.edge_bitCount (s : State) (b : Bool) :
    (s.edge b).bitCount = if s.bitCount < s.config.maxBits then s.bitCount + 1 else s.bitCount := by
  unfold State.edge; split_ifs <;> rfl

theorem State.edge_frameBytes (s : State) (b : Bool) : (s.edge b).frameBytes =
    if s.bitCount < s.config.maxBits then
      s.frameBytes.write (targetByte s.bitCount) (shiftIn (s.frameBytes.read (targetByte s.bitCount)) b)
    else s.frameBytes := by
  unfold State.edge; split_ifs <;> rfl

/-- What a read gives after an edge: below capacity the target byte with the bit shifted in, else what was there. -/
theorem State.edge_read (s : State) (b : Bool) (k : Nat) : (s.edge b).frameBytes.read k =
    if s.bitCount < s.config.maxBits ∧ k = targetByte s.bitCount then shiftIn (s.frameBytes.read k) b
    else s.frameBytes.read k := by
  rw [State.edge_frameBytes]
  by_cases h : s.bitCount < s.config.maxBits
  · by_cases hk : k = targetByte s.bitCount
    · subst hk
      simp [h]
    · simp [h, hk, Ne.symm hk]
  · simp [h]

/-- The byte with a bit shifted in, as a number. -/
theorem shiftIn_toNat (v : Byte) (b : Bool) : (shiftIn v b).toNat = (2 * v.toNat + b.toNat) % 2 ^ 8 := by
  revert v
  cases b <;> decide

/-- The target byte is storage whenever it is written. -/
theorem targetByte_lt (c : Config) (n : Nat) (h : n < c.maxBits) : targetByte n < c.capBytes := by
  unfold targetByte Config.maxBits at *
  omega

theorem exec_edge (b : Bool) (s : State) : exec (.edge b) s = .next ((s.edge b).respond (.edge b) .none) := by
  cases b <;> rfl

theorem exec_poll (s : State) : exec .poll s = .next (s.respond .poll (.count (s.pollValue s.now))) := rfl

theorem exec_take_of_not_ready (m : BitVec 8) (s : State) (h : s.pollValue s.now = 0) :
    exec (.take m) s = .next (s.respond (.take m) (.frame 0 [])) := by
  simp [exec, execTake, h]

theorem exec_take_of_ready (m : BitVec 8) (s : State) (h : s.pollValue s.now ≠ 0) :
    exec (.take m) s = .next (s.clearFrame.respond (.take m)
      (.frame s.bitCount (s.snapshot (takeLength s.bitCount m)))) := by
  simp [exec, execTake, h]

theorem exec_reset (s : State) : exec .reset s = .next (s.clearFrame.respond .reset .none) := rfl

theorem exec_decode (s : State) :
    exec .decode s = .next (s.respond .decode (.decoded (decodeFields s.config s.decN s.decRaw))) := rfl

/-- Everything one event can do. -/
theorem exec_cases {i : Instr} {s t : State} (h : exec i s = .next t) :
    (∃ b, i = .edge b ∧ t = (s.edge b).respond (.edge b) .none) ∨
    (i = .poll ∧ t = s.respond .poll (.count (s.pollValue s.now))) ∨
    (∃ m, i = .take m ∧ s.pollValue s.now = 0 ∧ t = s.respond (.take m) (.frame 0 [])) ∨
    (∃ m, i = .take m ∧ s.pollValue s.now ≠ 0 ∧
      t = s.clearFrame.respond (.take m) (.frame s.bitCount (s.snapshot (takeLength s.bitCount m)))) ∨
    (i = .reset ∧ t = s.clearFrame.respond .reset .none) ∨
    (i = .decode ∧ t = s.respond .decode (.decoded (decodeFields s.config s.decN s.decRaw))) := by
  cases i with
  | edge0 => exact .inl ⟨false, rfl, by cases h; rfl⟩
  | edge1 => exact .inl ⟨true, rfl, by cases h; rfl⟩
  | poll => exact .inr (.inl ⟨rfl, by cases h; rfl⟩)
  | take m =>
    by_cases hp : s.pollValue s.now = 0
    · rw [exec_take_of_not_ready m s hp] at h
      exact .inr (.inr (.inl ⟨m, rfl, hp, by cases h; rfl⟩))
    · rw [exec_take_of_ready m s hp] at h
      exact .inr (.inr (.inr (.inl ⟨m, rfl, hp, by cases h; rfl⟩)))
  | reset => exact .inr (.inr (.inr (.inr (.inl ⟨rfl, by cases h; rfl⟩))))
  | decode => exact .inr (.inr (.inr (.inr (.inr ⟨rfl, by cases h; rfl⟩))))

/-- Everything one step can do when it answers a next state. -/
theorem step_cases {s t : State} (h : step s = .next t) :
    (s.pending = [] ∧ t = s) ∨
    ∃ inp rest i, s.pending = inp :: rest ∧ decodeWord inp.word = .ok i ∧ s.now ≤ inp.now ∧
      exec i (s.sample inp rest) = .next t := by
  unfold step at h
  split at h
  · next hp =>
    cases h
    exact .inl ⟨hp, rfl⟩
  · next inp rest hp =>
    split at h
    · cases h
    · next i hd =>
      split_ifs at h with hnow
      exact .inr ⟨inp, rest, i, hp, hd, Nat.not_lt.mp hnow, h⟩

/-- A step on a legal event that keeps time. -/
theorem step_of_legal {s : State} {inp : Input} {rest : List Input} {i : Instr} (hp : s.pending = inp :: rest)
    (hd : decodeWord inp.word = .ok i) (hn : s.now ≤ inp.now) : step s = exec i (s.sample inp rest) := by
  simp [step, hp, hd, Nat.not_lt.mpr hn]

theorem step_of_illegal {s : State} {inp : Input} {rest : List Input} {why : Illegal} (hp : s.pending = inp :: rest)
    (hd : decodeWord inp.word = .error why) : step s = .refused (.illegalWord inp.word why) := by
  simp [step, hp, hd]

end Sys2Proof.Machine
end

