-- ==== Sys2Proof/Laws/FieldDecoder.lean ====
section
/-! SUPPORT. Laws of the decoder: which entry of FORMATS a length finds, and the combined value where it fits its result. -/

namespace Sys2Proof.Machine

/-- In a legal table a length finds its entry. -/
theorem formatOf_eq {c : Config} {e : Format} {n : Nat} (hl : c.legal = true) (he : e ∈ c.formats) (hn : e.len = n) :
    formatOf c n = some e := by
  simp only [Config.legal, Bool.and_eq_true, decide_eq_true_eq] at hl
  have hd := hl.2
  unfold formatOf
  generalize c.formats = l at he hd
  induction l with
  | nil => cases he
  | cons x xs ih =>
    simp only [List.map_cons, List.nodup_cons] at hd
    rcases List.mem_cons.mp he with rfl | he
    · simp [hn]
    · have : x.len ≠ n := fun h => hd.1 (by rw [h, ← hn]; exact List.mem_map_of_mem he)
      simp [this, ih he hd.2]

/-- A length finds an entry exactly when the table has one of that length. -/
theorem formatOf_isSome_iff (c : Config) (n : Nat) : (formatOf c n).isSome = true ↔ ∃ e ∈ c.formats, e.len = n := by
  simp [formatOf]

theorem formatOf_eq_none_iff (c : Config) (n : Nat) : formatOf c n = none ↔ ∀ e ∈ c.formats, e.len ≠ n := by
  simp [formatOf]

/-- The combined value where it fits 64 bits. -/
theorem combinedOf_toNat {c : Config} {fac card : Nat} (h : fac * c.combineMult + card < 2 ^ 64) :
    (combinedOf c fac card).toNat = fac * c.combineMult + card := by
  rw [combinedOf, if_pos h, BitVec.toNat_ofNat, Nat.mod_eq_of_lt h]

theorem and_mask16 (x : Nat) : x &&& 0xFFFF = x % 2 ^ 16 := Nat.and_two_pow_sub_one_eq_mod x 16

theorem and_mask8 (x : Nat) : x &&& 0xFF = x % 2 ^ 8 := Nat.and_two_pow_sub_one_eq_mod x 8

end Sys2Proof.Machine
end

