-- ==== Sys2Proof/Laws/Run.lean ====
section
/-! SUPPORT. Laws of runs: a run unfolds by its first step, splits where it is cut, and carries whatever one step keeps; what an
event leaves alone outside the block. -/

namespace Sys2Proof.Machine

@[simp] theorem State.withNow_config (s : State) (time : Nat) :
    (s.withNow time).config = s.config := rfl
@[simp] theorem State.withNow_frameBytes (s : State) (time : Nat) :
    (s.withNow time).frameBytes = s.frameBytes := rfl
@[simp] theorem State.withNow_bitCount (s : State) (time : Nat) :
    (s.withNow time).bitCount = s.bitCount := rfl
@[simp] theorem State.withNow_lastActivity (s : State) (time : Nat) :
    (s.withNow time).lastActivity = s.lastActivity := rfl
@[simp] theorem State.withNow_now (s : State) (time : Nat) :
    (s.withNow time).now = time := rfl
@[simp] theorem State.withNow_decN (s : State) (time : Nat) :
    (s.withNow time).decN = s.decN := rfl
@[simp] theorem State.withNow_decRaw (s : State) (time : Nat) :
    (s.withNow time).decRaw = s.decRaw := rfl
@[simp] theorem State.withNow_pending (s : State) (time : Nat) :
    (s.withNow time).pending = s.pending := rfl
@[simp] theorem State.withNow_trace (s : State) (time : Nat) :
    (s.withNow time).trace = s.trace := rfl
@[simp] theorem State.withPending_config (s : State) (pending : List Input) :
    (s.withPending pending).config = s.config := rfl
@[simp] theorem State.withPending_frameBytes (s : State) (pending : List Input) :
    (s.withPending pending).frameBytes = s.frameBytes := rfl
@[simp] theorem State.withPending_bitCount (s : State) (pending : List Input) :
    (s.withPending pending).bitCount = s.bitCount := rfl
@[simp] theorem State.withPending_lastActivity (s : State) (pending : List Input) :
    (s.withPending pending).lastActivity = s.lastActivity := rfl
@[simp] theorem State.withPending_now (s : State) (pending : List Input) :
    (s.withPending pending).now = s.now := rfl
@[simp] theorem State.withPending_decN (s : State) (pending : List Input) :
    (s.withPending pending).decN = s.decN := rfl
@[simp] theorem State.withPending_decRaw (s : State) (pending : List Input) :
    (s.withPending pending).decRaw = s.decRaw := rfl
@[simp] theorem State.withPending_pending (s : State) (pending : List Input) :
    (s.withPending pending).pending = pending := rfl
@[simp] theorem State.withPending_trace (s : State) (pending : List Input) :
    (s.withPending pending).trace = s.trace := rfl
@[simp] theorem State.withTrace_config (s : State) (trace : List Observation) :
    (s.withTrace trace).config = s.config := rfl
@[simp] theorem State.withTrace_frameBytes (s : State) (trace : List Observation) :
    (s.withTrace trace).frameBytes = s.frameBytes := rfl
@[simp] theorem State.withTrace_bitCount (s : State) (trace : List Observation) :
    (s.withTrace trace).bitCount = s.bitCount := rfl
@[simp] theorem State.withTrace_lastActivity (s : State) (trace : List Observation) :
    (s.withTrace trace).lastActivity = s.lastActivity := rfl
@[simp] theorem State.withTrace_now (s : State) (trace : List Observation) :
    (s.withTrace trace).now = s.now := rfl
@[simp] theorem State.withTrace_decN (s : State) (trace : List Observation) :
    (s.withTrace trace).decN = s.decN := rfl
@[simp] theorem State.withTrace_decRaw (s : State) (trace : List Observation) :
    (s.withTrace trace).decRaw = s.decRaw := rfl
@[simp] theorem State.withTrace_pending (s : State) (trace : List Observation) :
    (s.withTrace trace).pending = s.pending := rfl
@[simp] theorem State.withTrace_trace (s : State) (trace : List Observation) :
    (s.withTrace trace).trace = trace := rfl

@[simp] theorem run_zero (s : State) : run 0 s = .next s := rfl

theorem run_succ_of_next {k : Nat} {s t : State} (h : step s = .next t) : run (k + 1) s = run k t := by
  have h' : core.step s = .next t := h
  simp only [run, Host.Core.run, h']
  rfl

theorem run_succ_of_fault {k : Nat} {s : State} {f : Fault} (h : step s = .fault f) : run (k + 1) s = .fault f := by
  have h' : core.step s = .fault f := h
  simp only [run, Host.Core.run, h']
  rfl

theorem run_succ_of_refused {k : Nat} {s : State} {r : Refusal} (h : step s = .refused r) :
    run (k + 1) s = .refused r := by
  have h' : core.step s = .refused r := h
  simp only [run, Host.Core.run, h']
  rfl

/-- A run of one step and more that answers a next state began with a step that did. -/
theorem run_succ_next {k : Nat} {s t : State} (h : run (k + 1) s = .next t) :
    ∃ u, step s = .next u ∧ run k u = .next t := by
  cases hs : step s with
  | next u => exact ⟨u, rfl, by rw [← run_succ_of_next hs]; exact h⟩
  | fault f => rw [run_succ_of_fault hs] at h; cases h
  | refused r => rw [run_succ_of_refused hs] at h; cases h

theorem run_add {j k : Nat} {s t : State} (h : run j s = .next t) : run (j + k) s = run k t := by
  induction j generalizing s with
  | zero => cases h; simp
  | succ j ih =>
    obtain ⟨u, hu, hrun⟩ := run_succ_next h
    rw [Nat.add_right_comm, run_succ_of_next hu]
    exact ih hrun

/-- Whatever every step keeps, every run keeps. -/
theorem run_keeps {P : State → Prop} (hP : ∀ s t, P s → step s = .next t → P t) {k : Nat} {s t : State} (hs : P s)
    (h : run k s = .next t) : P t := by
  induction k generalizing s with
  | zero => cases h; exact hs
  | succ k ih =>
    obtain ⟨u, hu, hrun⟩ := run_succ_next h
    exact ih (hP s u hs hu) hrun

/-- An event that answers with its response from a state that differs from `s` at most in the block leaves everything outside
the block alone. -/
theorem responds_respond (i : Instr) (r : Response) {s u : State} (hc : u.config = s.config) (hn : u.now = s.now)
    (hN : u.decN = s.decN) (hR : u.decRaw = s.decRaw) (hp : u.pending = s.pending) (ht : u.trace = s.trace) :
    Responds i r s (u.respond i r) := by
  refine ⟨hc, hn, hN, hR, hp, ?_⟩
  have ho : u.operandsOf i = s.operandsOf i := by cases i <;> simp [State.operandsOf, hN, hR]
  simp [ho, hn, ht]

theorem responds_self (i : Instr) (r : Response) (s : State) : Responds i r s (s.respond i r) :=
  responds_respond i r rfl rfl rfl rfl rfl rfl

theorem responds_edge (b : Bool) (s : State) : Responds (.edge b) .none s ((s.edge b).respond (.edge b) .none) :=
  responds_respond _ _ (by simp) (by simp) (by simp) (by simp) (by simp) (by simp)

theorem responds_clearFrame (i : Instr) (r : Response) (s : State) : Responds i r s (s.clearFrame.respond i r) :=
  responds_respond i r rfl rfl rfl rfl rfl rfl

theorem sameBlock_respond (i : Instr) (r : Response) (s : State) : SameBlock s (s.respond i r) :=
  ⟨fun _ => rfl, rfl, rfl⟩

theorem cleared_clearFrame (i : Instr) (r : Response) (s : State) : Cleared s (s.clearFrame.respond i r) :=
  ⟨fun k hk => by simp [hk], fun k hk => by simp [Nat.not_lt.mpr hk], rfl, rfl⟩

/-- Every event leaves everything outside the block alone but for its one observation. -/
theorem exec_responds {i : Instr} {s t : State} (h : exec i s = .next t) : ∃ r, Responds i r s t := by
  rcases exec_cases h with ⟨b, rfl, rfl⟩ | ⟨rfl, rfl⟩ | ⟨m, rfl, -, rfl⟩ | ⟨m, rfl, -, rfl⟩ | ⟨rfl, rfl⟩ | ⟨rfl, rfl⟩
  · exact ⟨_, responds_edge b s⟩
  · exact ⟨_, responds_self _ _ s⟩
  · exact ⟨_, responds_self _ _ s⟩
  · exact ⟨_, responds_clearFrame _ _ s⟩
  · exact ⟨_, responds_clearFrame _ _ s⟩
  · exact ⟨_, responds_self _ _ s⟩

theorem legal_iff (inp : Input) : inp.isLegal = true ↔ ∃ i, decodeWord inp.word = .ok i := by
  unfold Input.isLegal
  split <;> simp_all

/-- An edge's word decodes to that edge. -/
theorem decodeWord_edge (b : Bool) : decodeWord (encode (.edge b)) = .ok (.edge b) := by
  cases b <;> rfl

/-- One step on a presented edge. -/
theorem step_edge {s : State} {b : Bool} {time : Nat} {rest : List Input}
    (hp : s.pending = inputOf (.edge b) time :: rest) (hn : s.now ≤ time) :
    step s = .next (((s.sample (inputOf (.edge b) time) rest).edge b).respond (.edge b) .none) := by
  rw [step_of_legal hp (decodeWord_edge b) hn, exec_edge]

end Sys2Proof.Machine
end

