-- ==== Sys2Proof/Laws/Frame.lean ====
section
/-! SUPPORT. What an edge, a clearing and an untouched block do to the frame held in the bytes, said once for every proof about
packing. -/

namespace Sys2Proof.Machine

/-- The bits of each byte after one more bit arrives: the target byte gains it, the others are as they were. -/
theorem chunk_concat (f : List Bool) (b : Bool) (k : Nat) :
    chunk (f ++ [b]) k = if k = targetByte f.length then chunk f k ++ [b] else chunk f k := by
  unfold chunk targetByte
  rcases Nat.lt_trichotomy k (f.length / 8) with h | h | h
  · rw [if_neg (by omega), List.drop_append_of_le_length (by omega), List.take_append_of_le_length (by simp; omega)]
  · rw [if_pos h, List.drop_append_of_le_length (by omega), List.take_append]
    rw [List.take_of_length_le (l := List.drop (8 * k) f) (by simp; omega)]
    congr 1
    apply List.take_of_length_le
    simp
    omega
  · rw [if_neg (by omega), List.drop_eq_nil_of_le (by simp; omega), List.drop_eq_nil_of_le (by omega)]

/-- Shifting a bit into the target byte of a held frame holds the frame with that bit. -/
theorem State.Holds.append {s t : State} {f : List Bool} {b : Bool} (h : s.Holds f) (hc : t.config = s.config)
    (hlt : s.bitCount < s.config.maxBits) (hn : t.bitCount = s.bitCount + 1)
    (hr : ∀ k, t.frameBytes.read k =
      if k = targetByte s.bitCount then shiftIn (s.frameBytes.read k) b else s.frameBytes.read k) :
    t.Holds (f ++ [b]) := by
  rw [State.holds_iff_chunks] at h ⊢
  obtain ⟨hcount, hwithin, hbytes⟩ := h
  refine ⟨by simp [hn, hcount], by rw [hc]; simp; omega, fun k hk => ?_⟩
  rw [hc] at hk
  rw [hr, chunk_concat, hcount]
  by_cases hkt : k = targetByte f.length
  · rw [if_pos hkt, if_pos hkt, shiftIn_toNat, hbytes k hk, rawValueOf_concat]
    have hlen : (chunk f k).length ≤ 7 := by
      rw [length_chunk]
      unfold targetByte at hkt
      omega
    have := lt_of_lt_of_le (rawValueOf_lt (chunk f k)) (Nat.pow_le_pow_right (by norm_num) hlen)
    have := Bool.toNat_lt b
    exact Nat.mod_eq_of_lt (by omega)
  · rw [if_neg hkt, if_neg hkt, hbytes k hk]

/-- Holding depends on the parameters, the count and the bytes alone. -/
theorem State.Holds.of_same {s t : State} {f : List Bool} (h : s.Holds f) (hc : t.config = s.config)
    (hn : t.bitCount = s.bitCount) (hr : ∀ k, t.frameBytes.read k = s.frameBytes.read k) : t.Holds f := by
  rw [State.holds_iff_chunks] at h ⊢
  exact ⟨by rw [hn, h.1], by rw [hc]; exact h.2.1, fun k hk => by rw [hr]; exact h.2.2 k (by rw [← hc]; exact hk)⟩

/-- An empty block holds the empty frame. -/
theorem State.holds_nil {s : State} (hn : s.bitCount = 0) (hr : ∀ k, k < s.config.capBytes → s.frameBytes.read k = 0x00) :
    s.Holds [] := by
  rw [State.holds_iff_chunks]
  exact ⟨hn, Nat.zero_le _, fun k hk => by rw [hr k hk]; simp [chunk]⟩

/-- What performing a presented edge does, without the conditionals of its definition. -/
theorem step_edge_effect {s : State} {b : Bool} {time : Nat} {rest : List Input}
    (hp : s.pending = inputOf (.edge b) time :: rest) (hn : s.now ≤ time) :
    ∃ t, step s = .next t ∧ t.config = s.config ∧ t.pending = rest ∧ t.now = time ∧ t.lastActivity = time ∧
      (s.bitCount < s.config.maxBits → t.bitCount = s.bitCount + 1 ∧ ∀ k, t.frameBytes.read k =
        if k = targetByte s.bitCount then shiftIn (s.frameBytes.read k) b else s.frameBytes.read k) ∧
      (s.config.maxBits ≤ s.bitCount → t.bitCount = s.bitCount ∧ ∀ k, t.frameBytes.read k = s.frameBytes.read k) ∧
      t.trace = { event := .edge b, now := time, operands := none, response := .none } :: s.trace := by
  refine ⟨_, step_edge hp hn, by simp, by simp, by simp [inputOf], by simp [inputOf], fun h => ⟨?_, fun k => ?_⟩,
    fun h => ⟨?_, fun k => ?_⟩, ?_⟩
  · rw [State.respond_bitCount, State.edge_bitCount, if_pos (by simpa using h)]
    rfl
  · rw [State.respond_frameBytes, State.edge_read]
    by_cases hk : k = targetByte s.bitCount
    · rw [if_pos ⟨by simpa using h, hk⟩, if_pos hk]
      rfl
    · rw [if_neg (fun hh => hk hh.2), if_neg hk]
      rfl
  · rw [State.respond_bitCount, State.edge_bitCount, if_neg (by simpa using h)]
    rfl
  · rw [State.respond_frameBytes, State.edge_read, if_neg (fun hh => absurd hh.1 (by simpa using h))]
    rfl
  · cases b <;> simp [Instr.edge, State.operandsOf, inputOf]

end Sys2Proof.Machine
end

