-- ==== Sys2Proof/Laws/FrameValue.lean ====
section
/-! SUPPORT. FrameValue as plain arithmetic, and its value on bytes that hold a frame. -/

namespace Sys2Proof.Machine

theorem shiftLeft_or_eq (a b n : Nat) (h : b < 2 ^ n) : a <<< n ||| b = a * 2 ^ n + b := by
  rw [Nat.shiftLeft_eq, Nat.mul_comm, Nat.two_pow_add_eq_or_of_lt h]

theorem returnedByte_lt (bytes : List Byte) (j : Nat) : returnedByte bytes j < 2 ^ 8 := (bytes.getD j 0x00).isLt

@[simp] theorem fullBytesValue_zero (bytes : List Byte) : fullBytesValue bytes 0 = 0 := rfl

theorem fullBytesValue_succ (bytes : List Byte) (q : Nat) :
    fullBytesValue bytes (q + 1) = fullBytesValue bytes q * 2 ^ 8 + returnedByte bytes q := by
  rw [← shiftLeft_or_eq _ _ _ (returnedByte_lt bytes q)]
  simp [fullBytesValue, List.range_succ]

/-- FrameValue (42_field_decoder.md R130) in arithmetic. -/
theorem frameValue_eq (n : Nat) (bytes : List Byte) : frameValue n bytes =
    fullBytesValue bytes (n / 8) * 2 ^ (n % 8) + returnedByte bytes (n / 8) % 2 ^ (n % 8) := by
  unfold frameValue
  split_ifs with h
  · rw [Nat.and_two_pow_sub_one_eq_mod, shiftLeft_or_eq _ _ _ (Nat.mod_lt _ (by positivity))]
  · have : n % 8 = 0 := by omega
    simp [this, Nat.mod_one]

theorem chunk_append_take (f : List Bool) (q : Nat) : f.take (8 * (q + 1)) = f.take (8 * q) ++ chunk f q := by
  rw [Nat.mul_succ, List.take_add]
  rfl

/-- On bytes that give each full byte, and the partial one, of a frame, FrameValue is the frame's value. -/
theorem frameValue_of_chunks (f : List Bool) (bytes : List Byte)
    (h : ∀ j, 8 * j < f.length → returnedByte bytes j = rawValueOf (chunk f j)) :
    frameValue f.length bytes = rawValueOf f := by
  have full : ∀ q, 8 * q ≤ f.length → fullBytesValue bytes q = rawValueOf (f.take (8 * q)) := by
    intro q
    induction q with
    | zero => simp
    | succ q ih =>
      intro hq
      have hl : (chunk f q).length = 8 := by rw [length_chunk]; omega
      rw [fullBytesValue_succ, ih (by omega), chunk_append_take, rawValueOf_append, hl, h q (by omega)]
  have hl : (chunk f (f.length / 8)).length = f.length % 8 := by rw [length_chunk]; omega
  have hsplit : f = f.take (8 * (f.length / 8)) ++ chunk f (f.length / 8) := by
    rw [← chunk_append_take, List.take_of_length_le (by omega)]
  rw [frameValue_eq, full _ (by omega)]
  conv_rhs => rw [hsplit, rawValueOf_append, hl]
  congr 1
  by_cases hr : f.length % 8 = 0
  · have : chunk f (f.length / 8) = [] := List.eq_nil_of_length_eq_zero (by omega)
    rw [this, hr]
    simp [Nat.mod_one]
  · rw [h _ (by omega)]
    have := rawValueOf_lt (chunk f (f.length / 8))
    rw [hl] at this
    exact Nat.mod_eq_of_lt this

end Sys2Proof.Machine
end

