-- ==== Sys2Proof/Laws/PerInstr.lean ====
section
/-! SUPPORT. Statements about every event as syntax, one lemma per constructor. -/

namespace Sys2Proof

/-- The word of the event is covered by exactly one row of the event map, and that row builds an event with the same mnemonic. -/
def Laws.EncodeMatchesRow.Statement (i : Instr) : Prop :=
  ∃ r ∈ eventRows, r.covers (encode i) = true ∧ (r.build (argField (encode i))).mnemonic = i.mnemonic

theorem Laws.EncodeMatchesRow.edge0 : Laws.EncodeMatchesRow.Statement .edge0 :=
  ⟨_, List.mem_cons_self, rfl, rfl⟩

theorem Laws.EncodeMatchesRow.edge1 : Laws.EncodeMatchesRow.Statement .edge1 :=
  ⟨_, List.mem_cons_of_mem _ List.mem_cons_self, rfl, rfl⟩

theorem Laws.EncodeMatchesRow.poll : Laws.EncodeMatchesRow.Statement .poll :=
  ⟨{ pattern := 0x2000, mask := 0xFFFF, build := fun _ => .poll }, by simp [eventRows], rfl, rfl⟩

theorem Laws.EncodeMatchesRow.take (maxBytes : BitVec 8) : Laws.EncodeMatchesRow.Statement (.take maxBytes) := by
  refine ⟨{ pattern := 0x3000, mask := 0xFF00, build := fun arg => .take arg }, by simp [eventRows], ?_, rfl⟩
  have hm := maxBytes.isLt
  have h : (encode (.take maxBytes)).toNat / 2 ^ 8 = 0x30 := by
    rw [encode_take_toNat]
    omega
  simpa [EventRow.covers] using (and_high_mask_iff _).mpr h

theorem Laws.EncodeMatchesRow.reset : Laws.EncodeMatchesRow.Statement .reset :=
  ⟨{ pattern := 0x4000, mask := 0xFFFF, build := fun _ => .reset }, by simp [eventRows], rfl, rfl⟩

theorem Laws.EncodeMatchesRow.decode : Laws.EncodeMatchesRow.Statement .decode :=
  ⟨{ pattern := 0x5000, mask := 0xFFFF, build := fun _ => .decode }, by simp [eventRows], rfl, rfl⟩

end Sys2Proof
end

