-- ==== Sys2Proof/Tests/Slice0.lean ====
section
/-! SUPPORT. Tests: what the checks of WellFormed refuse; words written out from 30_encoding.md; single events with results from
95_test_vectors.md (the vector's name stands in each comment) or computed by hand from a rule; and, for every statement with
hypotheses, a concrete state and operands that meet them all. -/

namespace Sys2Proof.Tests

open Sys2Proof.Machine

/-! ## Helpers -/

/-- The next state, where there is one. -/
def nextOf (o : Host.Outcome State Fault Refusal) : Option State :=
  match o with
  | .next s    => some s
  | .fault _   => none
  | .refused _ => none

/-- The latest response, where there is one. -/
def responseOf (o : Host.Outcome State Fault Refusal) : Option Response :=
  (nextOf o).bind (fun s => (s.trace.head?).map Observation.response)

/-- The latest response a step leaves. -/
def stepResponse (s : State) : Option Response := responseOf (step s)

/-- V-T1's state: a ready 26-bit frame in bytes BD D9 37 01. -/
def card : State :=
  { State.reset with
    frameBytes := [(0, 0xBD), (1, 0xD9), (2, 0x37), (3, 0x01)], bitCount := 26, lastActivity := 12600, now := 4012601 }

/-- V-T7's state: 256 bits, every byte FF. -/
def full : State :=
  { State.reset with
    frameBytes := (List.range 32).map (fun k => (k, 0xFF)), bitCount := 256, lastActivity := 299, now := 4000300 }

/-- V-E5's start: three bits, byte 0 05. -/
def three : State := { State.reset with frameBytes := [(0, 0x05)], bitCount := 3, lastActivity := 2, now := 20 }

/-- The bits of V-T1's frame. -/
def cardBits : List Bool := bitsOf 26 0x2F764DD

/-- The state after `@10 EDGE1` from reset (R83's example). -/
def oneBit : State :=
  { State.reset with
    frameBytes := [(0, 0x01)], bitCount := 1, lastActivity := 10, now := 10
    trace := [{ event := .edge1, now := 10, operands := none, response := .none }] }

/-! ## WellFormed refuses -/

theorem test_legal_refuses_no_bytes : ({ Config.default with capBytes := 0 } : Config).legal = false := by decide
theorem test_legal_refuses_repeated_length :
    ({ Config.default with formats := [format26, format26] } : Config).legal = false := by decide
theorem test_legal_accepts_default : Config.default.legal = true := by decide
theorem test_fits_refuses_wide_raw :
    ({ word := 0x5000, now := 0, decN := 0, decRaw := 2 ^ 256 } : Input).fits Config.default = false := by decide
theorem test_fits_accepts_widest_raw :
    ({ word := 0x5000, now := 0, decN := 0, decRaw := 2 ^ 256 - 1 } : Input).fits Config.default = true := by decide
theorem test_ordered_refuses_earlier :
    orderedFrom 5 [inputOf .poll 5, inputOf .edge0 4] = false := by decide
theorem test_ordered_accepts_equal :
    orderedFrom 5 [inputOf .poll 5, inputOf .edge0 5] = true := by decide

/-! ## Words, bit by bit from 30_encoding.md R60 and R66 -/

theorem test_decode_edge0 : decodeWord 0b0001000000000000#16 = .ok .edge0 := by decide
theorem test_decode_edge1 : decodeWord 0b0001000000000001#16 = .ok .edge1 := by decide
theorem test_decode_poll : decodeWord 0b0010000000000000#16 = .ok .poll := by decide
theorem test_decode_take : decodeWord 0b0011000010000001#16 = .ok (.take 129) := by decide
theorem test_decode_reset : decodeWord 0b0100000000000000#16 = .ok .reset := by decide
theorem test_decode_decode : decodeWord 0b0101000000000000#16 = .ok .decode := by decide
/-- V-X3, V-X5, V-X8, V-X11, V-X12. -/
theorem test_decode_refuses : decodeWord 0x1002#16 = .error .edgeArg ∧ decodeWord 0x2001#16 = .error .commandArg ∧
    decodeWord 0x3121#16 = .error .reservedZ ∧ decodeWord 0#16 = .error .reservedOp ∧
    decodeWord 0xF000#16 = .error .reservedOp := by decide
theorem test_table_word_take : decodeTableWord 16 0x30FF = some (.take 255) := by decide
theorem test_table_word_too_long : decodeTableWord 32 0x1000 = none := by decide
theorem test_encode_take : encode (.take 8) = 0x3008#16 := by decide

/-! ## The first step after reset -/

theorem test_fetched_edge_runs : (nextOf (step (State.reset.withFetchWord 16 0x1001))).map State.bitCount = some 1 := by
  decide
theorem test_fetched_take_runs : stepResponse (State.reset.withFetchWord 16 0x3008) = some (.frame 0 []) := by decide
theorem test_fetched_zero_is_refused :
    (nextOf (step (State.reset.withFetchWord 16 0))).isNone = true := by decide
theorem test_nothing_presented : nextOf (step State.reset) = some State.reset := by decide

/-! ## Single events -/

/-- V-E5. -/
theorem test_edge0_shifts : (nextOf (exec .edge0 three)).map (fun t => (t.bitCount, t.frameBytes.read 0, t.lastActivity)) =
    some (4, 0x0A, 20) := by decide
/-- V-E8. -/
theorem test_edge0_at_capacity : (nextOf (exec .edge0 { full with now := 300 })).map
    (fun t => (t.bitCount, t.frameBytes == full.frameBytes, t.lastActivity)) = some (256, true, 300) := by decide
/-- V-E4: a new byte starts right-aligned. -/
theorem test_edge1_new_byte :
    (nextOf (exec .edge1 { State.reset with frameBytes := [(0, 0xB2)], bitCount := 8, now := 8 })).map
      (fun t => (t.bitCount, t.frameBytes)) = some (9, [(0, 0xB2), (1, 0x01)]) := by decide
/-- V-E6's last bit: the 256th goes to byte 31. -/
theorem test_edge1_last_bit : (nextOf (exec .edge1 { State.reset with bitCount := 255, now := 255 })).map
    (fun t => (t.bitCount, t.frameBytes)) = some (256, [(31, 0x01)]) := by decide
/-- V-P3 and V-P4. -/
theorem test_poll_at_threshold : responseOf (exec .poll { card with now := 4012600 }) = some (.count 0) := by decide
theorem test_poll_past_threshold : responseOf (exec .poll card) = some (.count 26) := by decide
/-- V-T3: a short TAKE still clears the whole frame. -/
theorem test_take_short : (nextOf (exec (.take 2) card)).map
    (fun t => (t.frameBytes, t.bitCount, t.lastActivity, (t.trace.head?).map Observation.response)) =
      some ([], 0, 12600, some (.frame 26 [0xBD, 0xD9])) := by decide
/-- V-T7: the 33rd byte. -/
theorem test_take_full : responseOf (exec (.take 64) full) =
    some (.frame 256 (List.replicate 32 0xFF ++ [0x00])) := by decide
/-- V-R1. -/
theorem test_reset_event : (nextOf (exec .reset { oneBit with now := 20 })).map
    (fun t => (t.frameBytes, t.bitCount, t.lastActivity)) = some ([], 0, 10) := by decide
/-- V-R2: a ready frame is discarded. -/
theorem test_reset_discards : ((nextOf (exec .reset card)).map (fun t => responseOf (exec (.take 8) t))) =
    some (some (.frame 0 [])) := by decide
/-- V-D1 (W1's fields). -/
theorem test_decode_34 : responseOf (exec .decode { State.reset with decN := 34, decRaw := 0x12345678 }) =
    some (.decoded { bitCount := 34, rawValue := 0x12345678, facilityCode := some 2330, cardCode := some 11068,
                     combinedValue := some 233011068 }) := by decide
/-- V-D12. -/
theorem test_decode_unrecognized : responseOf (exec .decode { State.reset with decN := 35, decRaw := 5 }) =
    some (.decoded { bitCount := 35, rawValue := 5, facilityCode := none, cardCode := none, combinedValue := none }) := by
  decide

/-! ## FrameValue and the notation -/

/-- V-F1, V-F4, V-F7, V-F9. -/
theorem test_frame_value : frameValue 26 [0xBD, 0xD9, 0x37, 0x01] = 0x2F764DD ∧ frameValue 8 [0xB2, 0x00] = 0xB2 ∧
    frameValue 3 [0xFD] = 0x5 ∧ frameValue 26 [0xBD, 0xD9] = 0x2F76400 := by decide
/-- R70's examples. -/
theorem test_assemble_edge : assemble ['@', '1', '0', '0', '0', ' ', 'E', 'D', 'G', 'E', '1', ' ', ';', ' ', 'x'] =
    some { word := 0x1001, now := 1000, decN := 0, decRaw := 0 } := by decide
theorem test_assemble_take : assemble ['@', '7', ' ', 'T', 'A', 'K', 'E', ' ', '8'] =
    some { word := 0x3008, now := 7, decN := 0, decRaw := 0 } := by decide
theorem test_assemble_decode :
    assemble ['@', '7', ' ', 'D', 'E', 'C', 'O', 'D', 'E', ' ', '2', '6', ',', ' ', '0', 'x', '2', 'F'] =
      some { word := 0x5000, now := 7, decN := 26, decRaw := 0x2F } := by decide
/-- The bits of P1's frame. -/
theorem test_frame_events : (frameEvents 100 500 26 0x2F764DD).map (fun inp => inp.word.getLsbD 0) =
    [true, false, true, true, true, true, false, true, true, true, false, true, true, false, false, true, false, false,
      true, true, false, true, true, true, false, true] := by decide

/-! ## Frames held -/

theorem card_holds : card.Holds cardBits := by
  rw [State.holds_iff_chunks]
  decide

theorem full_holds : full.Holds (List.replicate 256 true) := by
  have hr : ∀ k, k < 32 → full.frameBytes.read k = 0xFF := by decide
  rw [State.holds_iff_chunks]
  refine ⟨by rw [List.length_replicate]; rfl, by rw [List.length_replicate]; decide, fun k hk => ?_⟩
  have hk : k < 32 := hk
  have hc : chunk (List.replicate 256 true) k = List.replicate 8 true := by
    unfold chunk
    rw [List.drop_replicate, List.take_replicate]
    congr 1
    omega
  rw [hr k hk, hc]
  decide

theorem oneBit_inv : oneBit.Inv := by
  refine ⟨by decide, by decide, ?_, by decide, by decide, by decide⟩
  rw [State.holds_iff_chunks]
  decide

/-- The same state with a RESET presented. -/
theorem oneBit_presented_inv : (oneBit.presentNext 0x4000).Inv := by
  refine ⟨by decide, by decide, ?_, by decide, by decide, by decide⟩
  rw [State.holds_iff_chunks]
  decide

/-! ## Witnesses: for each statement with hypotheses, a state and operands that meet them all -/

theorem witness_LegalWordIsTheWordOfItsEvent : decodeWord 0x30FF#16 = .ok (.take 255) := by decide

/-- One word for each row's clause. -/
theorem witness_WordMatchesExactlyOneRowOrIsIllegal :
    0x1000#16 &&& 0xFFFF#16 = 0x1000#16 ∧ 0x1001#16 &&& 0xFFFF#16 = 0x1001#16 ∧ 0x2000#16 &&& 0xFFFF#16 = 0x2000#16 ∧
    0x30FF#16 &&& 0xFF00#16 = 0x3000#16 ∧ 0x3000#16 &&& 0xFF00#16 = 0x3000#16 ∧
    0x4000#16 &&& 0xFFFF#16 = 0x4000#16 ∧ 0x5000#16 &&& 0xFFFF#16 = 0x5000#16 := by decide

/-- An illegal word is next. -/
theorem witness_IllegalWordsAreTheListedOnesAndAreRefused :
    (State.reset.presentNext 0x6000).pending = [{ word := 0x6000, now := 0, decN := 0, decRaw := 0 }] ∧
    decodeWord 0x6000#16 = .error .reservedOp := by decide

/-- A POLL is performed, and then an illegal word is next. -/
theorem witness_RefusalIsNeverCleared : ∃ s,
    run 1 (State.reset.withPending [inputOf .poll 3, { word := 0x3121, now := 4, decN := 0, decRaw := 0 }]) = .next s ∧
    s.pending = [{ word := 0x3121, now := 4, decN := 0, decRaw := 0 }] ∧ decodeWord 0x3121#16 = .error .reservedZ :=
  ⟨_, rfl, rfl, by decide⟩

/-- The ports' clause has the hypotheses of `witness_StepPerformsTheDecodedEvent`. -/
theorem witness_OperandsComeFromWordAndPorts : decodeWord 0x30FF#16 = .ok (.take 255) ∧
    decodeWord 0x1001#16 = .ok .edge1 ∧ Instr.edge1.edgeBit = some true ∧
    decodeWord 0x1000#16 = .ok .edge0 ∧ Instr.edge0.edgeBit = some false := by decide

/-- An event at the very time of its predecessor, with the widest raw value. -/
theorem witness_StepPerformsTheDecodedEvent :
    (State.reset.withPending [decodeInput 0 511 (2 ^ 256 - 1)]).pending = [decodeInput 0 511 (2 ^ 256 - 1)] ∧
    decodeWord (decodeInput 0 511 (2 ^ 256 - 1)).word = .ok .decode ∧ State.reset.now ≤ 0 ∧
    (decodeInput 0 511 (2 ^ 256 - 1)).fits Config.default = true := by decide

theorem witness_OnlyAnEarlierTimeHasNoMove :
    step (oneBit.withPending [inputOf .poll 9]) = .fault (.clockSteppedBack 10 9) ∧
    (oneBit.withPending [inputOf .poll 9]).pending = [inputOf .poll 9] ∧ (inputOf .poll 9).isLegal = true ∧
    (inputOf .poll 9).now < oneBit.now := ⟨rfl, rfl, rfl, by decide⟩

/-- Two simultaneous events, in both orders. -/
theorem witness_LegalEventsRunInTheirOrder :
    [inputOf .edge1 10, inputOf (.take 8) 10].all Input.isLegal = true ∧
    orderedFrom oneBit.now [inputOf .edge1 10, inputOf (.take 8) 10] = true ∧
    orderedFrom oneBit.now [inputOf (.take 8) 10, inputOf .edge1 10] = true := by decide

/-- Each clause at the capacity's boundary: 255 and 256 bits. -/
theorem witness_EdgeAppendsItsBitOrDropsItAtCapacity :
    ({ full with bitCount := 255 } : State).bitCount < full.config.maxBits ∧ full.config.maxBits ≤ full.bitCount := by
  decide

theorem witness_EdgeShiftsNoBitOut : oneBit.Inv ∧ oneBit.bitCount < oneBit.config.maxBits :=
  ⟨oneBit_inv, by decide⟩

/-- Two edges across the capacity's boundary, at one time. -/
theorem witness_EdgesCountUpToCapacity :
    ({ full with bitCount := 255, pending := edgeInputs [(true, 4000300), (false, 4000300)] } : State).pending =
      edgeInputs ([(true, 4000300)] ++ [(false, 4000300)]) ++ [] ∧
    orderedFrom full.now (edgeInputs ([(true, 4000300)] ++ [(false, 4000300)])) = true ∧ 255 ≤ full.config.maxBits := by
  decide

/-- The hypotheses of StepKeepsTheInvariant. -/
theorem witness_StepKeepsTheInvariant :
    (oneBit.presentNext 0x4000).Inv ∧ ∃ t, step (oneBit.presentNext 0x4000) = .next t :=
  ⟨oneBit_presented_inv, _, rfl⟩

/-- A state that holds a bit and accounts for it, and a RESET from it. -/
theorem witness_StepKeepsEveryEdgeAccountedFor :
    (oneBit.presentNext 0x4000).Inv ∧ (oneBit.presentNext 0x4000).Accounted ∧
    ∃ t, step (oneBit.presentNext 0x4000) = .next t := ⟨oneBit_presented_inv, rfl, _, rfl⟩

theorem witness_StepKeepsStorageCanonicalAndInRange :
    card.frameBytes.wf = true ∧ card.frameBytes.inRange card.config.capBytes = true ∧
    card.bitCount ≤ card.config.maxBits ∧ (nextOf (step (card.presentNext 0x1001))).isSome = true := by decide

/-- The hypotheses of the statements about reachable states, with a bit held. -/
theorem witness_Reachable : ∃ s, Reachable Config.default s ∧ 0 < s.bitCount := by
  refine ⟨_, Reachable.step _ _ (Reachable.present _ (inputOf .edge1 10) (Reachable.powerOn 0)) rfl, ?_⟩
  decide

/-- The hypothesis of StepKeepsParametersTimeAndPast. -/
theorem witness_StepKeepsParametersTimeAndPast : (nextOf (step (card.presentNext 0x3008))).isSome = true := by decide

/-- Each event answers a next state; an edge, a TAKE that takes and a POLL meet the clauses. -/
theorem witness_OnlyTheseEventsWriteEachField :
    (nextOf (exec .edge1 card)).map State.bitCount = some 27 ∧ Instr.edge1.edgeBit.isSome = true ∧
    (nextOf (exec (.take 8) card)).map State.bitCount = some 0 ∧ Instr.poll.edgeBit = none ∧
    (nextOf (exec (.take 8) card)).map (fun t => t.frameBytes.read 0) = some 0x00 := by decide

/-- Each clause: one tick past the threshold, at the threshold, and with nothing held. -/
theorem witness_PollRespondsTheCountExactlyWhenReady :
    (0 < card.bitCount ∧ card.lastActivity + card.config.idleThreshold < card.now) ∧
    card.lastActivity + card.config.idleThreshold + 1 = card.now ∧
    (card.withNow 4012600).now ≤ card.lastActivity + card.config.idleThreshold ∧ State.reset.bitCount = 0 := by decide

theorem witness_NoFrameReadyIsAZeroLengthResult :
    State.reset.bitCount = 0 ∧ (card.withNow 4012600).now ≤ card.lastActivity + card.config.idleThreshold := by decide

/-- A full buffer and 26 bits, both one tick past the threshold. -/
theorem witness_ReadyTakeReturnsTheFrameAndClears :
    (0 < full.bitCount ∧ full.lastActivity + full.config.idleThreshold < full.now) ∧
    (0 < card.bitCount ∧ card.lastActivity + card.config.idleThreshold < card.now) := by decide

/-- Both clauses: a full buffer (a multiple of 8, the byte at CAP_BYTES) and 26 bits, `maxBytes` just enough. -/
theorem witness_LastByteIsZeroOrThePartialByte :
    (full.Holds (List.replicate 256 true) ∧ 0 < (List.replicate 256 true).length ∧
      full.lastActivity + full.config.idleThreshold < full.now ∧
      (List.replicate 256 true).length % 8 = 0 ∧ (List.replicate 256 true).length / 8 < (33 : BitVec 8).toNat) ∧
    (card.Holds cardBits ∧ 0 < cardBits.length ∧ card.lastActivity + card.config.idleThreshold < card.now ∧
      cardBits.length % 8 ≠ 0 ∧ cardBits.length / 8 < (4 : BitVec 8).toNat) :=
  ⟨⟨full_holds, by rw [List.length_replicate]; decide, by decide, by rw [List.length_replicate],
    by rw [List.length_replicate]; decide⟩, card_holds, by decide, by decide, by decide, by decide⟩

/-- The hypotheses of FrameValueOfTakenBytesIsTheRawValue and BytesRefineTheBlockOverBits: room enough, and one byte short. -/
theorem witness_FrameValueOfTakenBytesIsTheRawValue :
    card.Holds cardBits ∧ 0 < cardBits.length ∧ card.lastActivity + card.config.idleThreshold < card.now ∧
    cardBits.length / 8 + 1 ≤ (4 : BitVec 8).toNat ∧ ¬ cardBits.length / 8 + 1 ≤ (3 : BitVec 8).toNat :=
  ⟨card_holds, by decide, by decide, by decide, by decide⟩

/-- A TAKE that took the card, then a POLL, then the next TAKE. -/
theorem witness_TakenFrameIsGoneUntilTheNextEdge : ∃ t u, 0 < card.bitCount ∧
    card.lastActivity + card.config.idleThreshold < card.now ∧ exec (.take 8) card = .next t ∧
    (∀ inp ∈ [inputOf .poll 4012601], ∀ i, decodeWord inp.word = .ok i → i.edgeBit = none) ∧
    run 1 (t.withPending [inputOf .poll 4012601]) = .next u := by
  refine ⟨_, _, by decide, by decide, rfl, ?_, rfl⟩
  intro inp hinp i hi
  rw [List.mem_singleton.mp hinp] at hi
  cases hi
  rfl

theorem witness_PowerOnResetAndTakeLeaveAnEmptyBuffer :
    (∃ t, exec .reset card = .next t) ∧
    ∃ t bytes, exec (.take 8) card = .next t ∧ 0 < 26 ∧ Responds (.take 8) (.frame 26 bytes) card t :=
  ⟨⟨_, rfl⟩, _, _, rfl, by decide, rfl, rfl, rfl, rfl, rfl, rfl⟩

/-- Exactly enough bytes for a frame of 9 bits and for the two clauses' length. -/
theorem witness_FrameValueIsBelowItsLengthAndIgnoresTheRest : 9 ≤ 8 * [0xB2#8, 0x01#8].length := by decide

theorem witness_EdgesThenTakeSpellTheirValue :
    State.reset.bitCount = 0 ∧ (∀ k, k < State.reset.config.capBytes → State.reset.frameBytes.read k = 0x00) ∧
    (State.reset.withPending (edgeInputs [(true, 0), (false, 5)] ++ [inputOf (.take 1) 4000006])).pending =
      edgeInputs ([(true, 0)] ++ [(false, 5)]) ++ [inputOf (.take 1) 4000006] ∧
    orderedFrom 0 (edgeInputs ([(true, 0)] ++ [(false, 5)]) ++ [inputOf (.take 1) 4000006]) = true ∧
    1 + 1 ≤ State.reset.config.maxBits ∧ 5 + State.reset.config.idleThreshold < 4000006 ∧
    (1 + 1) / 8 + 1 ≤ (1 : BitVec 8).toNat := by decide

/-- P1's card and W1's, at the first ready time, with just enough bytes. -/
theorem witness_PresentedCardIsDecoded :
    (0x2F764DD < 2 ^ 26 ∧ 100 + (26 - 1) * 500 + 4000000 < 4012601 ∧ 26 / 8 + 1 ≤ (4 : BitVec 8).toNat) ∧
    (0x12345678 < 2 ^ 34 ∧ 0 + (34 - 1) * 1000 + 4000000 < 4033001 ∧ 34 / 8 + 1 ≤ (5 : BitVec 8).toNat) := by decide

/-- Also the hypotheses of RecognizedLengthsAreThoseOfTheTable and CombinedValueGivesItsFieldsBack. -/
theorem witness_DecodeOfARecognizedLengthExtractsItsFields :
    State.reset.config.legal = true ∧ format34 ∈ State.reset.config.formats ∧
    format34.len = ({ State.reset with decN := 34, decRaw := 0x3FFFFFFFF } : State).decN.toNat ∧
    ((0x3FFFFFFFF >>> format34.facShift) &&& format34.facMask) * 100000 +
      ((0x3FFFFFFFF >>> format34.cardShift) &&& format34.cardMask) < 2 ^ 64 ∧
    format34.cardMask < State.reset.config.combineMult ∧
    format34.facMask * State.reset.config.combineMult + format34.cardMask < 2 ^ 64 := by decide

theorem witness_DecodeOfAnUnrecognizedLengthIsRawOnly :
    ∀ e ∈ ({ State.reset with decN := 27 } : State).config.formats,
      e.len ≠ ({ State.reset with decN := 27 } : State).decN.toNat := by decide

theorem witness_DefaultFormatsReadTheirBitRanges :
    (bitsOf 34 0x12345678).length = 34 ∧ (bitsOf 26 0x2F764DD).length = 26 := by decide

/-- Two raw values that differ in bit 0, bit `n-1` and a bit above, for each length. -/
theorem witness_EndBitsReachNoField :
    ((26 : BitVec 9).toNat = 26 ∧ ∀ j, 1 ≤ j → j ≤ (26 : BitVec 9).toNat - 2 →
      (0x0 : Nat).testBit j = (0x6000001 : Nat).testBit j) ∧
    ((34 : BitVec 9).toNat = 34 ∧ ∀ j, 1 ≤ j → j ≤ (34 : BitVec 9).toNat - 2 →
      (0x0 : Nat).testBit j = (0x600000001 : Nat).testBit j) := by
  refine ⟨⟨rfl, fun j h1 h2 => ?_⟩, rfl, fun j h1 h2 => ?_⟩
  · have : ∀ j, j ≤ 24 → 1 ≤ j → (0x0 : Nat).testBit j = (0x6000001 : Nat).testBit j := by decide
    exact this j h2 h1
  · have : ∀ j, j ≤ 32 → 1 ≤ j → (0x0 : Nat).testBit j = (0x600000001 : Nat).testBit j := by decide
    exact this j h2 h1

theorem witness_DecodeDependsOnItsOperandsAlone :
    State.reset.config = card.config ∧ State.reset.decN = card.decN ∧ State.reset.decRaw = card.decRaw := by decide

/-- A gap of exactly the threshold; the step after the first edge meets the first clause at the second edge's own time. -/
theorem witness_GapsWithinTheThresholdHoldTheFrame :
    State.reset.config.legal = true ∧ State.reset.bitCount = 0 ∧
    (State.reset.withPending (edgeInputs [(true, 7), (false, 4000007)])).pending =
      edgeInputs ([(true, 7)] ++ [(false, 4000007)]) ++ [] ∧
    orderedFrom 0 (edgeInputs ([(true, 7)] ++ [(false, 4000007)])) = true ∧
    (([(true, 7)] ++ [(false, 4000007)]).map Prod.snd).IsChain (fun a b => b ≤ a + 4000000) ∧
    (∃ t, run 1 (State.reset.withPending (edgeInputs [(true, 7), (false, 4000007)])) = .next t ∧ t.now ≤ 4000007) ∧
    4000007 ≤ 4000007 + State.reset.config.idleThreshold ∧ 4000007 + State.reset.config.idleThreshold < 8000008 := by
  refine ⟨by decide, by decide, rfl, by decide, by decide, ⟨_, rfl, by decide⟩, by decide, by decide⟩

theorem witness_EdgeRacingATakeIsInExactlyOneFrame :
    card.Holds cardBits ∧ 0 < cardBits.length ∧ cardBits.length < card.config.maxBits ∧ card.now ≤ 4012601 ∧
    card.lastActivity + card.config.idleThreshold < 4012601 :=
  ⟨card_holds, by decide, by decide, by decide, by decide⟩

theorem witness_EdgeRacingATakeOnAFullBufferIsNextOrDropped :
    full.config.legal = true ∧ full.Holds (List.replicate 256 true) ∧
    (List.replicate 256 true).length = full.config.maxBits ∧ full.now ≤ 4000300 ∧
    full.lastActivity + full.config.idleThreshold < 4000300 :=
  ⟨by decide, full_holds, by rw [List.length_replicate]; decide, by decide, by decide⟩

/-- Both clauses of LateConsumerMergesFrames: at the threshold after the late edge, and one tick past it. -/
theorem witness_LateConsumerMergesFrames : card.bitCount < card.config.maxBits ∧ card.now ≤ 8012601 ∧
    8012601 ≤ card.now + card.config.idleThreshold ∧ card.now + card.config.idleThreshold < 8012602 := by decide

theorem witness_UnheldLastActivityIsNeverObserved :
    Indistinguishable (State.powerOn Config.default 0) (State.powerOn Config.default 7) :=
  ⟨rfl, fun h => absurd h (by decide)⟩

theorem witness_PollAndDecodeLeaveTheBlockAsIfNeverIssued :
    ∃ t, run 2 (card.withPending [inputOf .poll 4012601, inputOf .edge1 4012602]) = .next t := ⟨_, rfl⟩

/-- A next state, a fault and a refusal. -/
theorem witness_ObservationsAreNeverRead : (∃ t, step (card.presentNext 0x2000) = .next t) ∧
    step (oneBit.withPending [inputOf .poll 9]) = .fault (.clockSteppedBack 10 9) ∧
    step (card.presentNext 0x6000) = .refused (.illegalWord 0x6000 .reservedOp) := ⟨⟨_, rfl⟩, rfl, rfl⟩

end Sys2Proof.Tests
end

section
/-! PROOFS. The rules of a step, of an observation and of storage that the statements about the state (10_state.md) share. -/

namespace Sys2Proof.Machine

/-! ### What a step does, outcome by outcome

`step_cases` says it of a next state; the two other outcomes and the empty list of presented events are here. -/

theorem step_of_empty {s : State} (hp : s.pending = []) : step s = .next s := by
  simp [step, hp]

/-- No event faults or is refused (60_exceptions.md R160). -/
theorem exec_answers_next (i : Instr) (s : State) : ∃ t, exec i s = .next t := by
  cases i with
  | edge0 => exact ⟨_, exec_edge false s⟩
  | edge1 => exact ⟨_, exec_edge true s⟩
  | poll => exact ⟨_, exec_poll s⟩
  | take m =>
    by_cases hp : s.pollValue s.now = 0
    · exact ⟨_, exec_take_of_not_ready m s hp⟩
    · exact ⟨_, exec_take_of_ready m s hp⟩
  | reset => exact ⟨_, exec_reset s⟩
  | decode => exact ⟨_, exec_decode s⟩

/-- The four situations a step can meet: nothing presented, an illegal word, a legal event at an earlier time, a legal event that
keeps time. -/
theorem presented_cases (s : State) :
    (s.pending = [] ∧ step s = .next s) ∨
    (∃ inp rest why, s.pending = inp :: rest ∧ decodeWord inp.word = .error why ∧
      step s = .refused (.illegalWord inp.word why)) ∨
    (∃ inp rest i, s.pending = inp :: rest ∧ decodeWord inp.word = .ok i ∧ inp.now < s.now ∧
      step s = .fault (.clockSteppedBack s.now inp.now)) ∨
    (∃ inp rest i t, s.pending = inp :: rest ∧ decodeWord inp.word = .ok i ∧ s.now ≤ inp.now ∧ step s = .next t) := by
  match hp : s.pending with
  | [] => exact .inl ⟨rfl, step_of_empty hp⟩
  | inp :: rest =>
    refine .inr ?_
    match hd : decodeWord inp.word with
    | .error why => exact .inl ⟨inp, rest, why, rfl, hd, step_of_illegal hp hd⟩
    | .ok i =>
      rcases Nat.lt_or_ge inp.now s.now with hn | hn
      · exact .inr (.inl ⟨inp, rest, i, rfl, hd, hn, by simp [step, hp, hd, hn]⟩)
      · obtain ⟨t, ht⟩ := exec_answers_next i (s.sample inp rest)
        exact .inr (.inr ⟨inp, rest, i, t, rfl, hd, hn, by rw [step_of_legal hp hd hn, ht]⟩)

theorem step_eq_fault_iff (s : State) (f : Fault) : step s = .fault f ↔
    ∃ inp rest i, s.pending = inp :: rest ∧ decodeWord inp.word = .ok i ∧ inp.now < s.now ∧
      f = .clockSteppedBack s.now inp.now := by
  constructor
  · intro h
    rcases presented_cases s with ⟨-, hs⟩ | ⟨_, _, _, -, -, hs⟩ | ⟨inp, rest, i, hp, hd, hn, hs⟩ |
      ⟨_, _, _, _, -, -, -, hs⟩
    all_goals rw [hs] at h; cases h
    exact ⟨inp, rest, i, hp, hd, hn, rfl⟩
  · rintro ⟨inp, rest, i, hp, hd, hn, rfl⟩
    simp [step, hp, hd, hn]

theorem step_eq_refused_iff (s : State) (r : Refusal) : step s = .refused r ↔
    ∃ inp rest why, s.pending = inp :: rest ∧ decodeWord inp.word = .error why ∧ r = .illegalWord inp.word why := by
  constructor
  · intro h
    rcases presented_cases s with ⟨-, hs⟩ | ⟨inp, rest, why, hp, hd, hs⟩ | ⟨_, _, _, -, -, -, hs⟩ |
      ⟨_, _, _, _, -, -, -, hs⟩
    all_goals rw [hs] at h; cases h
    exact ⟨inp, rest, why, hp, hd, rfl⟩
  · rintro ⟨inp, rest, why, hp, hd, rfl⟩
    exact step_of_illegal hp hd

/-- What sampling an event that keeps time keeps, and every event keeps, every step keeps. -/
theorem step_keeps {P : State → Prop}
    (hsample : ∀ s inp rest, P s → s.now ≤ inp.now → P (s.sample inp rest))
    (hexec : ∀ i s t, P s → exec i s = .next t → P t)
    {s t : State} (hs : P s) (h : step s = .next t) : P t := by
  rcases step_cases h with ⟨-, rfl⟩ | ⟨inp, rest, i, -, -, hn, he⟩
  · exact hs
  · exact hexec i _ t (hsample s inp rest hs hn) he

/-! ### What one more observation does to the frame and to the time of the latest edge -/

@[simp] theorem edgeBit_edge (b : Bool) : (Instr.edge b).edgeBit = some b := by
  cases b <;> rfl

/-- An observed edge adds its bit below capacity. -/
theorem frameOf_edge (c : Config) (b : Bool) (now : Nat) (ops : Option Operands) (r : Response)
    (older : List Observation) :
    frameOf c ({ event := .edge b, now := now, operands := ops, response := r } :: older) =
      if (frameOf c older).length < c.maxBits then frameOf c older ++ [b] else frameOf c older := by
  cases b <;> rfl

/-- A TAKE that reported a count ends the frame; one that reported 0 leaves it. -/
theorem frameOf_take (c : Config) (m : BitVec 8) (now : Nat) (ops : Option Operands) (n : Nat) (bytes : List Byte)
    (older : List Observation) :
    frameOf c ({ event := .take m, now := now, operands := ops, response := .frame n bytes } :: older) =
      if n = 0 then frameOf c older else [] := rfl

theorem lastEdgeTime_edge (b : Bool) (now : Nat) (ops : Option Operands) (r : Response) (older : List Observation) :
    lastEdgeTime ({ event := .edge b, now := now, operands := ops, response := r } :: older) = some now := by
  simp [lastEdgeTime]

theorem lastEdgeTime_of_not_edge {o : Observation} (h : o.event.edgeBit = none) (older : List Observation) :
    lastEdgeTime (o :: older) = lastEdgeTime older := by
  simp [lastEdgeTime, h]

/-! ### A ready TAKE has bits to take -/

theorem State.bitCount_pos_of_pollValue {s : State} {now : Nat} (h : s.pollValue now ≠ 0) : 0 < s.bitCount := by
  rw [Ne, State.pollValue_eq_zero_iff] at h
  omega

/-! ### Storage stays canonical and in range -/

/-- Storage is canonical and within `CAP_BYTES`, and the count within `MAX_BITS`. -/
structure State.StorageOk (s : State) : Prop where
  canonical : s.frameBytes.wf = true
  inRange   : s.frameBytes.inRange s.config.capBytes = true
  count     : s.bitCount ≤ s.config.maxBits

theorem State.StorageOk.respond {s : State} (h : s.StorageOk) (i : Instr) (r : Response) : (s.respond i r).StorageOk :=
  ⟨h.canonical, h.inRange, h.count⟩

theorem State.StorageOk.sample {s : State} (h : s.StorageOk) (inp : Input) (rest : List Input) :
    (s.sample inp rest).StorageOk :=
  ⟨h.canonical, h.inRange, h.count⟩

theorem State.StorageOk.clearFrame {s : State} (h : s.StorageOk) : s.clearFrame.StorageOk :=
  ⟨Memory.wf_clearBelow _ _ h.canonical, Memory.inRange_clearBelow _ _ h.inRange, Nat.zero_le _⟩

theorem State.StorageOk.edge {s : State} (h : s.StorageOk) (b : Bool) : (s.edge b).StorageOk := by
  obtain ⟨hwf, hrange, hcount⟩ := h
  by_cases hlt : s.bitCount < s.config.maxBits
  · constructor
    · rw [State.edge_frameBytes, if_pos hlt]
      exact Memory.wf_write _ _ _ hwf
    · rw [State.edge_frameBytes, if_pos hlt, State.edge_config]
      exact Memory.inRange_write _ _ _ _ hrange (targetByte_lt _ _ hlt)
    · rw [State.edge_bitCount, if_pos hlt, State.edge_config]
      exact hlt
  · constructor
    · rwa [State.edge_frameBytes, if_neg hlt]
    · rwa [State.edge_frameBytes, if_neg hlt, State.edge_config]
    · rwa [State.edge_bitCount, if_neg hlt, State.edge_config]

theorem exec_keeps_storageOk (i : Instr) (s t : State) (h : s.StorageOk) (he : exec i s = .next t) : t.StorageOk := by
  rcases exec_cases he with ⟨b, -, rfl⟩ | ⟨-, rfl⟩ | ⟨m, -, -, rfl⟩ | ⟨m, -, -, rfl⟩ | ⟨-, rfl⟩ | ⟨-, rfl⟩
  · exact (h.edge b).respond _ _
  · exact h.respond _ _
  · exact h.respond _ _
  · exact h.clearFrame.respond _ _
  · exact h.clearFrame.respond _ _
  · exact h.respond _ _

/-- Settles O17: sampling touches no storage, and each event keeps it. -/
theorem stepKeepsStorageCanonicalAndInRange : Obligations.StepKeepsStorageCanonicalAndInRange := by
  intro s t hwf hrange hcount h
  obtain ⟨hwf', hrange', hcount'⟩ := step_keeps (P := State.StorageOk) (fun _ inp rest hs _ => hs.sample inp rest)
    exec_keeps_storageOk ⟨hwf, hrange, hcount⟩ h
  exact ⟨hwf', hrange', hcount'⟩

/-! ### The invariant: power-on, and each thing an event can do -/

theorem State.powerOn_inv (c : Config) (draw : Nat) : (State.powerOn c draw).Inv where
  canonical := rfl
  inRange   := rfl
  holds     := State.holds_nil rfl (fun _ _ => rfl)
  activity  := fun h => absurd h (Nat.lt_irrefl 0)
  elapsed   := fun h => absurd h (Nat.lt_irrefl 0)
  rawFits   := Nat.two_pow_pos _

theorem State.Inv.storageOk {s : State} (h : s.Inv) : s.StorageOk :=
  ⟨h.canonical, h.inRange, h.holds.count ▸ h.holds.within⟩

/-- Sampling keeps the invariant: time moves forward, and the raw port has `MAX_BITS` lines. -/
theorem State.Inv.sample {s : State} (h : s.Inv) {inp : Input} (hn : s.now ≤ inp.now) (rest : List Input) :
    (s.sample inp rest).Inv where
  canonical := h.canonical
  inRange   := h.inRange
  holds     := h.holds.of_same rfl rfl (fun _ => rfl)
  activity  := h.activity
  elapsed   := fun hb => (h.elapsed hb).trans hn
  rawFits   := Nat.mod_lt _ (Nat.two_pow_pos _)

theorem State.Inv.present {s : State} (h : s.Inv) (inp : Input) : (s.present inp).Inv where
  canonical := h.canonical
  inRange   := h.inRange
  holds     := h.holds.of_same rfl rfl (fun _ => rfl)
  activity  := h.activity
  elapsed   := h.elapsed
  rawFits   := h.rawFits

/-- A response of an event that is no edge and leaves the observed frame as it is. -/
theorem State.Inv.respond {s : State} (h : s.Inv) {i : Instr} {r : Response} (hi : i.edgeBit = none)
    (hf : frameOf s.config (s.respond i r).trace = frameOf s.config s.trace) : (s.respond i r).Inv where
  canonical := h.canonical
  inRange   := h.inRange
  holds     := by
    rw [State.respond_config, hf]
    exact h.holds.of_same rfl rfl (fun _ => rfl)
  activity  := fun hb => (lastEdgeTime_of_not_edge hi _).trans (h.activity hb)
  elapsed   := h.elapsed
  rawFits   := h.rawFits

/-- A clearing whose observation ends the frame. -/
theorem State.Inv.clearFrame {s : State} (h : s.Inv) {i : Instr} {r : Response}
    (hf : frameOf s.config (s.clearFrame.respond i r).trace = []) : (s.clearFrame.respond i r).Inv where
  canonical := h.storageOk.clearFrame.canonical
  inRange   := h.storageOk.clearFrame.inRange
  holds     := by
    rw [State.respond_config, State.clearFrame_config, hf]
    exact State.holds_nil rfl (fun k hk => (cleared_clearFrame i r s).bytes k hk)
  activity  := fun hb => absurd hb (Nat.lt_irrefl 0)
  elapsed   := fun hb => absurd hb (Nat.lt_irrefl 0)
  rawFits   := h.rawFits

/-- The bytes after an edge hold the frame with its bit, or at capacity the frame as it was. -/
theorem State.Holds.edge {s : State} {f : List Bool} (h : s.Holds f) (b : Bool) :
    (s.edge b).Holds (if f.length < s.config.maxBits then f ++ [b] else f) := by
  rw [← h.count]
  by_cases hlt : s.bitCount < s.config.maxBits
  · rw [if_pos hlt]
    refine h.append (by simp) hlt (by rw [State.edge_bitCount, if_pos hlt]) (fun k => ?_)
    simp [State.edge_read, hlt]
  · rw [if_neg hlt]
    refine h.of_same (by simp) (by rw [State.edge_bitCount, if_neg hlt]) (fun k => ?_)
    simp [State.edge_read, hlt]

theorem State.Inv.edge {s : State} (h : s.Inv) (b : Bool) : ((s.edge b).respond (.edge b) .none).Inv where
  canonical := (h.storageOk.edge b).canonical
  inRange   := (h.storageOk.edge b).inRange
  holds     := by
    rw [State.respond_trace, frameOf_edge, State.respond_config, State.edge_config, State.edge_trace]
    exact (h.holds.edge b).of_same rfl rfl (fun _ => rfl)
  activity  := fun _ => by simp [lastEdgeTime_edge]
  elapsed   := fun _ => by simp
  rawFits   := by simpa using h.rawFits

theorem exec_keeps_inv (i : Instr) (s t : State) (h : s.Inv) (he : exec i s = .next t) : t.Inv := by
  rcases exec_cases he with ⟨b, -, rfl⟩ | ⟨-, rfl⟩ | ⟨m, -, -, rfl⟩ | ⟨m, -, hp, rfl⟩ | ⟨-, rfl⟩ | ⟨-, rfl⟩
  · exact h.edge b
  · exact h.respond rfl rfl
  · exact h.respond rfl (frameOf_take ..)
  · have hn : s.bitCount ≠ 0 := Nat.ne_of_gt (State.bitCount_pos_of_pollValue hp)
    exact h.clearFrame ((frameOf_take ..).trans (if_neg hn))
  · exact h.clearFrame rfl
  · exact h.respond rfl rfl

theorem step_keeps_inv {s t : State} (h : s.Inv) (hs : step s = .next t) : t.Inv :=
  step_keeps (fun _ _ rest h hn => h.sample hn rest) exec_keeps_inv h hs

/-- Settles O15: sampling and every event keep the invariant. -/
theorem stepKeepsTheInvariant : Obligations.StepKeepsTheInvariant :=
  fun _ _ h hs => step_keeps_inv h hs

/-- Settles O16: `State.reset` is one of the power-on states. -/
theorem invariantHoldsAtPowerOn : Obligations.InvariantHoldsAtPowerOn :=
  ⟨State.powerOn_inv, State.powerOn_inv Config.default 0⟩

/-! ### What a step leaves alone outside the block -/

/-- Settles O21: an event leaves the parameters and the sampled time alone and adds its one observation. -/
theorem stepKeepsParametersTimeAndPast : Obligations.StepKeepsParametersTimeAndPast := by
  intro s t h
  rcases step_cases h with ⟨-, rfl⟩ | ⟨inp, rest, i, -, -, hn, he⟩
  · exact ⟨rfl, Nat.le_refl _, .inl rfl⟩
  · obtain ⟨r, hr⟩ := exec_responds he
    have hnow : t.now = inp.now := hr.now
    exact ⟨hr.config, hnow ▸ hn, .inr ⟨_, hr.trace, hnow.symm⟩⟩

/-! ### Reachable states -/

/-- Every reachable state meets the invariant, with the parameters of its run. -/
theorem Reachable.inv {c : Config} {s : State} (h : Reachable c s) : s.config = c ∧ s.Inv := by
  induction h with
  | powerOn draw => exact ⟨rfl, State.powerOn_inv c draw⟩
  | present s inp _ ih =>
    obtain ⟨hc, hinv⟩ := ih
    exact ⟨hc, hinv.present inp⟩
  | step s t _ hs ih =>
    obtain ⟨hc, hinv⟩ := ih
    obtain ⟨hconfig, -, -⟩ := stepKeepsParametersTimeAndPast s t hs
    exact ⟨hconfig.trans hc, step_keeps_inv hinv hs⟩

/-- Settles O18: the invariant of every reachable state, item by item. -/
theorem reachableBytesHoldTheFrame : Obligations.ReachableBytesHoldTheFrame := by
  intro c s h
  obtain ⟨rfl, hinv⟩ := h.inv
  obtain ⟨hcount, hwithin, hfull, hsmall, hpartly, hbeyond⟩ := hinv.holds
  rw [← hcount] at hwithin hfull hsmall hpartly hbeyond
  exact ⟨hcount, hwithin, fun k hk j hj => hfull k j hk hj, fun hq => ⟨hsmall hq, hpartly hq⟩, hbeyond⟩

/-- Settles O19: two fields of the invariant. -/
theorem heldBitsCarryTheLatestEdgeTime : Obligations.HeldBitsCarryTheLatestEdgeTime := by
  intro c s h hb
  obtain ⟨-, hinv⟩ := h.inv
  exact ⟨hinv.activity hb, hinv.elapsed hb⟩

/-- Settles O13: below capacity the target byte is the one not yet full, with at most 7 bits. -/
theorem edgeShiftsNoBitOut : Obligations.EdgeShiftsNoBitOut := by
  intro s hinv hlt
  have htarget := targetByte_lt s.config s.bitCount hlt
  have hsmall := hinv.holds.small
  rw [← hinv.holds.count] at hsmall
  have hbits : s.bitCount % 8 ≤ 7 := by omega
  exact ⟨htarget, lt_of_lt_of_le (hsmall htarget) (Nat.pow_le_pow_right (by norm_num) hbits)⟩

/-! ### One step on a presented event -/

/-- Settles O8: the state in which the event runs is the sampled one. -/
theorem stepPerformsTheDecodedEvent : Obligations.StepPerformsTheDecodedEvent := by
  intro s inp rest i hp hd hn
  refine ⟨s.sample inp rest, step_of_legal hp hd hn, rfl, rfl, rfl, rfl, rfl, rfl, fun hfits => ?_, rfl, rfl⟩
  have hraw : inp.decRaw < 2 ^ s.config.maxBits := by simpa [Input.fits] using hfits
  exact Nat.mod_eq_of_lt hraw

/-- Settles O9: of the four situations a step can meet, one faults. -/
theorem onlyAnEarlierTimeHasNoMove : Obligations.OnlyAnEarlierTimeHasNoMove := by
  intro s f
  rw [step_eq_fault_iff]
  constructor
  · rintro ⟨inp, rest, i, hp, hd, hn, hf⟩
    exact ⟨inp, rest, hp, (legal_iff inp).mpr ⟨i, hd⟩, hn, hf⟩
  · rintro ⟨inp, rest, hp, hlegal, hn, hf⟩
    obtain ⟨i, hd⟩ := (legal_iff inp).mp hlegal
    exact ⟨inp, rest, i, hp, hd, hn, hf⟩

/-! ### Which event writes which field -/

/-- Settles O22, event by event. -/
theorem onlyTheseEventsWriteEachField : Obligations.OnlyTheseEventsWriteEachField := by
  intro i s t h
  rcases exec_cases h with ⟨b, rfl, rfl⟩ | ⟨rfl, rfl⟩ | ⟨m, rfl, -, rfl⟩ | ⟨m, rfl, -, rfl⟩ | ⟨rfl, rfl⟩ | ⟨rfl, rfl⟩
  · refine ⟨fun _ => by simp, fun hi => by simp at hi, fun _ => .inl (by simp), fun k hk => .inl ⟨by simp, ?_⟩⟩
    by_contra hne
    exact hk (by simp [State.edge_read, hne])
  · exact ⟨nofun, fun _ => rfl, fun hc => absurd rfl hc, fun k hk => absurd rfl hk⟩
  · exact ⟨nofun, fun _ => rfl, fun hc => absurd rfl hc, fun k hk => absurd rfl hk⟩
  · exact ⟨nofun, fun _ => rfl, fun _ => .inr (.inl ⟨m, rfl⟩), fun _ _ => .inr (.inl ⟨m, rfl⟩)⟩
  · exact ⟨nofun, fun _ => rfl, fun _ => .inr (.inr rfl), fun _ _ => .inr (.inr rfl)⟩
  · exact ⟨nofun, fun _ => rfl, fun hc => absurd rfl hc, fun k hk => absurd rfl hk⟩

/-- A TAKE that answered a count above 0 left the block cleared: one that was not ready answers 0. -/
theorem cleared_of_take {m : BitVec 8} {s t : State} {n : Nat} {bytes : List Byte} (h : exec (.take m) s = .next t)
    (hn : 0 < n) (hr : Responds (.take m) (.frame n bytes) s t) : Cleared s t := by
  by_cases hp : s.pollValue s.now = 0
  · rw [exec_take_of_not_ready m s hp] at h
    cases h
    have hzero : 0 = n ∧ [] = bytes := by simpa using hr.trace
    exact absurd hzero.1 (Nat.ne_of_lt hn)
  · rw [exec_take_of_ready m s hp] at h
    cases h
    exact cleared_clearFrame _ _ s

/-- Settles O30: power-on by its fields, RESET and a successful TAKE by the clearing they share. -/
theorem powerOnResetAndTakeLeaveAnEmptyBuffer : Obligations.PowerOnResetAndTakeLeaveAnEmptyBuffer := by
  refine ⟨fun c draw => ⟨rfl, rfl, rfl, fun _ => rfl⟩, ⟨rfl, 0, rfl⟩, fun s t h => ?_,
    fun m s t n bytes h hn hr => cleared_of_take h hn hr⟩
  cases h
  exact cleared_clearFrame _ _ s

/-! ### The observation of the past is never read -/

theorem State.withTrace_edge (s : State) (tr : List Observation) (b : Bool) :
    (s.withTrace tr).edge b = (s.edge b).withTrace tr := by
  unfold State.edge
  rw [State.withTrace_bitCount, State.withTrace_config]
  split_ifs <;> rfl

/-- With another past, an event answers the same state with the same new observation before that past. -/
theorem exec_withTrace {i : Instr} {s t : State} (h : exec i s = .next t) (other : List Observation) :
    ∃ o, t.trace = o :: s.trace ∧ exec i (s.withTrace other) = .next (t.withTrace (o :: other)) := by
  rcases exec_cases h with ⟨b, rfl, rfl⟩ | ⟨rfl, rfl⟩ | ⟨m, rfl, hp, rfl⟩ | ⟨m, rfl, hp, rfl⟩ | ⟨rfl, rfl⟩ | ⟨rfl, rfl⟩
  · refine ⟨_, by rw [State.respond_trace, State.edge_trace], ?_⟩
    rw [exec_edge, State.withTrace_edge]
    rfl
  · exact ⟨_, rfl, rfl⟩
  · exact ⟨_, rfl, exec_take_of_not_ready m _ hp⟩
  · exact ⟨_, rfl, exec_take_of_ready m _ hp⟩
  · exact ⟨_, rfl, rfl⟩
  · exact ⟨_, rfl, rfl⟩

/-- Settles O50: a stop depends on the presented events and the time alone, and a next state by `exec_withTrace`. -/
theorem observationsAreNeverRead : Obligations.ObservationsAreNeverRead := by
  refine fun s other => ⟨fun t h => ?_, fun f h => ?_, fun r h => ?_⟩
  · rcases step_cases h with ⟨hp, rfl⟩ | ⟨inp, rest, i, hp, hd, hn, he⟩
    · exact ⟨[], rfl, step_of_empty hp⟩
    · obtain ⟨o, htrace, ho⟩ := exec_withTrace he other
      exact ⟨[o], htrace, (step_of_legal (s := s.withTrace other) hp hd hn).trans ho⟩
  · rw [step_eq_fault_iff] at h ⊢
    exact h
  · rw [step_eq_refused_iff] at h ⊢
    exact h

/-! ### `LAST_ACTIVITY` while no bit is held is never observed

`State.withLastActivity` names the other state of `Indistinguishable`, so that each event can be followed on both. -/

/-- The same state with another `LAST_ACTIVITY`. -/
def State.withLastActivity (s : State) (x : Nat) : State := { s with lastActivity := x }

@[simp] theorem State.withLastActivity_config (s : State) (x : Nat) :
    (s.withLastActivity x).config = s.config := rfl
@[simp] theorem State.withLastActivity_bitCount (s : State) (x : Nat) :
    (s.withLastActivity x).bitCount = s.bitCount := rfl
@[simp] theorem State.withLastActivity_now (s : State) (x : Nat) :
    (s.withLastActivity x).now = s.now := rfl

theorem indistinguishable_iff (s t : State) : Indistinguishable s t ↔
    t = s ∨ s.bitCount = 0 ∧ t = s.withLastActivity t.lastActivity := by
  constructor
  · rintro ⟨ht, hlast⟩
    rcases Nat.eq_zero_or_pos s.bitCount with h0 | hpos
    · exact .inr ⟨h0, ht⟩
    · exact .inl (by rw [ht, hlast hpos])
  · rintro (rfl | ⟨h0, ht⟩)
    · exact ⟨rfl, fun _ => rfl⟩
    · exact ⟨ht, fun hpos => by omega⟩

theorem Indistinguishable.refl (s : State) : Indistinguishable s s := ⟨rfl, fun _ => rfl⟩

theorem indistinguishable_withLastActivity {s : State} (h : s.bitCount = 0) (x : Nat) :
    Indistinguishable s (s.withLastActivity x) := ⟨rfl, fun hpos => by omega⟩

/-- The response does not rest on it, so it may follow. -/
theorem indistinguishable_respond {s : State} (h : s.bitCount = 0) (x : Nat) (i : Instr) (r : Response) :
    Indistinguishable (s.respond i r) ((s.withLastActivity x).respond i r) :=
  indistinguishable_withLastActivity (s := s.respond i r) h x

theorem State.pollValue_of_empty {s : State} (h : s.bitCount = 0) (now : Nat) : s.pollValue now = 0 :=
  (State.pollValue_eq_zero_iff s now).mpr (.inl h)

/-- An edge overwrites `LAST_ACTIVITY`, so it forgets what stood there. -/
theorem State.withLastActivity_edge (s : State) (x : Nat) (b : Bool) : (s.withLastActivity x).edge b = s.edge b := by
  unfold State.edge
  rw [State.withLastActivity_bitCount, State.withLastActivity_config]
  split_ifs <;> rfl

/-- On an empty block an event answers alike, whatever `LAST_ACTIVITY` is: an edge overwrites it, and the ready test reads it only
while bits are held. -/
theorem exec_withLastActivity {i : Instr} {s t : State} (h0 : s.bitCount = 0) (h : exec i s = .next t) (x : Nat) :
    ∃ t', exec i (s.withLastActivity x) = .next t' ∧ Indistinguishable t t' := by
  have hpoll : s.pollValue s.now = 0 := State.pollValue_of_empty h0 _
  have hpoll' : (s.withLastActivity x).pollValue (s.withLastActivity x).now = 0 :=
    State.pollValue_of_empty (s := s.withLastActivity x) h0 _
  rcases exec_cases h with ⟨b, rfl, rfl⟩ | ⟨rfl, rfl⟩ | ⟨m, rfl, -, rfl⟩ | ⟨m, rfl, hp, -⟩ | ⟨rfl, rfl⟩ | ⟨rfl, rfl⟩
  · refine ⟨_, exec_edge b _, ?_⟩
    rw [State.withLastActivity_edge]
    exact Indistinguishable.refl _
  · refine ⟨_, exec_poll _, ?_⟩
    rw [hpoll, hpoll']
    exact indistinguishable_respond h0 x _ _
  · exact ⟨_, exec_take_of_not_ready m _ hpoll', indistinguishable_respond h0 x _ _⟩
  · exact absurd hpoll hp
  · exact ⟨_, exec_reset _, indistinguishable_respond (s := s.clearFrame) rfl x _ _⟩
  · exact ⟨_, exec_decode _, indistinguishable_respond h0 x _ _⟩

/-- One step from the same block with another unheld `LAST_ACTIVITY`. -/
theorem step_withLastActivity {s t : State} (h0 : s.bitCount = 0) (h : step s = .next t) (x : Nat) :
    ∃ t', step (s.withLastActivity x) = .next t' ∧ Indistinguishable t t' := by
  rcases step_cases h with ⟨hp, rfl⟩ | ⟨inp, rest, i, hp, hd, hn, he⟩
  · exact ⟨_, step_of_empty hp, indistinguishable_withLastActivity h0 x⟩
  · obtain ⟨t', ht', hind⟩ := exec_withLastActivity (s := s.sample inp rest) h0 he x
    exact ⟨t', (step_of_legal (s := s.withLastActivity x) hp hd hn).trans ht', hind⟩

theorem Indistinguishable.step_next {s s' t : State} (h : Indistinguishable s t) (hs : step s = .next s') :
    ∃ t', step t = .next t' ∧ Indistinguishable s' t' := by
  rcases (indistinguishable_iff s t).mp h with rfl | ⟨h0, ht⟩
  · exact ⟨s', hs, Indistinguishable.refl s'⟩
  · rw [ht]
    exact step_withLastActivity h0 hs _

theorem Indistinguishable.step_fault {s t : State} {f : Fault} (h : Indistinguishable s t) (hs : step s = .fault f) :
    step t = .fault f := by
  rw [h.1]
  rw [step_eq_fault_iff] at hs ⊢
  exact hs

theorem Indistinguishable.step_refused {s t : State} {r : Refusal} (h : Indistinguishable s t)
    (hs : step s = .refused r) : step t = .refused r := by
  rw [h.1]
  rw [step_eq_refused_iff] at hs ⊢
  exact hs

/-- Settles O48, by induction on the number of steps: `Indistinguishable` is kept by a next state, and stops agree. -/
theorem unheldLastActivityIsNeverObserved : Obligations.UnheldLastActivityIsNeverObserved := by
  intro s t k h
  induction k generalizing s t with
  | zero => exact h
  | succ k ih =>
    cases hs : step s with
    | next s' =>
      obtain ⟨t', ht, h'⟩ := h.step_next hs
      rw [run_succ_of_next hs, run_succ_of_next ht]
      exact ih s' t' h'
    | fault f =>
      rw [run_succ_of_fault hs, run_succ_of_fault (h.step_fault hs)]
      rfl
    | refused r =>
      rw [run_succ_of_refused hs, run_succ_of_refused (h.step_refused hs)]
      rfl

end Sys2Proof.Machine
end

section
/-! PROOFS. Storage, byte order and ordering (20_memory.md): the byte-packed block against the block over bits, and the rules of
a TAKE on a held frame that the statements about races share. -/

namespace Sys2Proof.Machine

/-! ### The bytes of a held frame

`State.holds_iff_chunks` speaks of each stored byte; here `BufRead`, and so what a TAKE returns, is the packing of the frame. -/

/-- `BufRead` gives the packing at every index: beyond storage the frame has no bits and the byte is 0x00 (20_memory.md R42). -/
theorem State.Holds.bufRead {s : State} {f : List Bool} (h : s.Holds f) (k : Nat) : s.bufRead k = packedByte f k := by
  obtain ⟨-, hwithin, hbytes⟩ := (State.holds_iff_chunks s f).mp h
  have hpacked : packedByte f k = BitVec.ofNat 8 (rawValueOf (chunk f k)) := rfl
  rw [hpacked, State.bufRead]
  by_cases hk : k < s.config.capBytes
  · rw [if_pos hk, ← hbytes k hk, BitVec.ofNat_toNat, BitVec.setWidth_eq]
  · have hempty : chunk f k = [] := by
      apply List.eq_nil_of_length_eq_zero
      rw [length_chunk]
      unfold Config.maxBits at hwithin
      omega
    rw [if_neg hk, hempty, rawValueOf_nil]
    rfl

/-- What a TAKE of a held frame returns is the packing of the frame. -/
theorem State.Holds.snapshot {s : State} {f : List Bool} (h : s.Holds f) (len : Nat) :
    s.snapshot len = (List.range len).map (packedByte f) :=
  List.map_congr_left fun k _ => h.bufRead k

theorem State.clearFrame_holds_nil (s : State) : s.clearFrame.Holds [] :=
  State.holds_nil rfl fun k hk => (cleared_clearFrame .reset .none s).bytes k hk

theorem State.Holds.respond {s : State} {f : List Bool} (h : s.Holds f) (i : Instr) (r : Response) :
    (s.respond i r).Holds f :=
  h.of_same rfl rfl fun _ => rfl

theorem State.Holds.sample {s : State} {f : List Bool} (h : s.Holds f) (inp : Input) (rest : List Input) :
    (s.sample inp rest).Holds f :=
  h.of_same rfl rfl fun _ => rfl

theorem State.Holds.withPending {s : State} {f : List Bool} (h : s.Holds f) (pending : List Input) :
    (s.withPending pending).Holds f :=
  h.of_same rfl rfl fun _ => rfl

/-! ### The block over bits, event by event -/

/-- The block over bits that a state holding `f` stands for. -/
def State.overBits (s : State) (f : List Bool) : BitBlock := { bits := f, last := s.lastActivity }

/-- What the block over bits does at event `i`, with the parameters and the inputs as `s` has them. -/
def State.performOverBits (s : State) (f : List Bool) (i : Instr) : BitBlock × Response :=
  BitBlock.perform s.config (s.overBits f) s.now s.decN s.decRaw i

/-- From `s`, event `i` answered `t` with the response of `p`, and the bytes of `t` hold the bits of `p`. -/
structure Refines (i : Instr) (s t : State) (p : BitBlock × Response) : Prop where
  responds : Responds i p.2 s t
  holds    : t.Holds p.1.bits
  last     : t.lastActivity = p.1.last

theorem State.performOverBits_edge (s : State) (f : List Bool) (b : Bool) :
    s.performOverBits f (.edge b) = ((s.overBits f).receive s.config b s.now, .none) := by
  cases b <;> rfl

/-- The ready condition of the block over bits is PollValue's (10_state.md R30). -/
theorem State.Holds.pollValue_ne_zero_iff {s : State} {f : List Bool} (h : s.Holds f) (now : Nat) :
    s.pollValue now ≠ 0 ↔ 0 < f.length ∧ s.lastActivity + s.config.idleThreshold < now := by
  rw [Ne, State.pollValue_eq_zero_iff, h.count]
  omega

theorem State.Holds.performOverBits_poll {s : State} {f : List Bool} (h : s.Holds f) :
    s.performOverBits f .poll = (s.overBits f, .count (s.pollValue s.now)) := by
  have hvalue : s.pollValue s.now = if s.lastActivity + s.config.idleThreshold < s.now then f.length else 0 := by
    rw [State.pollValue_eq, h.count]
    split_ifs <;> omega
  rw [hvalue]
  rfl

theorem State.Holds.performOverBits_take_of_not_ready {s : State} {f : List Bool} (h : s.Holds f) (m : BitVec 8)
    (hp : s.pollValue s.now = 0) : s.performOverBits f (.take m) = (s.overBits f, .frame 0 []) :=
  if_neg fun hready => (h.pollValue_ne_zero_iff s.now).mpr hready hp

/-- A ready TAKE of a held frame returns the bytes the block over bits would pack (20_memory.md R41, R43). -/
theorem State.Holds.performOverBits_take_of_ready {s : State} {f : List Bool} (h : s.Holds f) (m : BitVec 8)
    (hp : s.pollValue s.now ≠ 0) : s.performOverBits f (.take m) =
      (s.clearFrame.overBits [], .frame s.bitCount (s.snapshot (takeLength s.bitCount m))) := by
  rw [h.snapshot, h.count]
  exact if_pos ((h.pollValue_ne_zero_iff s.now).mp hp)

/-- Every event on bytes that hold a frame answers as the block over bits does. -/
theorem State.Holds.exec_refines {i : Instr} {s t : State} {f : List Bool} (h : s.Holds f) (he : exec i s = .next t) :
    Refines i s t (s.performOverBits f i) := by
  rcases exec_cases he with ⟨b, rfl, rfl⟩ | ⟨rfl, rfl⟩ | ⟨m, rfl, hp, rfl⟩ | ⟨m, rfl, hp, rfl⟩ | ⟨rfl, rfl⟩ | ⟨rfl, rfl⟩
  · rw [s.performOverBits_edge]
    exact ⟨responds_edge b s, (h.edge b).respond _ _, s.edge_lastActivity b⟩
  · rw [h.performOverBits_poll]
    exact ⟨responds_self _ _ s, h.respond _ _, rfl⟩
  · rw [h.performOverBits_take_of_not_ready m hp]
    exact ⟨responds_self _ _ s, h.respond _ _, rfl⟩
  · rw [h.performOverBits_take_of_ready m hp]
    exact ⟨responds_clearFrame _ _ s, s.clearFrame_holds_nil.respond _ _, rfl⟩
  · exact ⟨responds_clearFrame _ _ s, s.clearFrame_holds_nil.respond _ _, rfl⟩
  · exact ⟨responds_self _ _ s, h.respond _ _, rfl⟩

/-- Settles O35: every event answers a next state, and `State.Holds.exec_refines` says which. -/
theorem bytesRefineTheBlockOverBits : Obligations.BytesRefineTheBlockOverBits := by
  intro i s f h
  obtain ⟨t, he⟩ := exec_answers_next i s
  obtain ⟨hresponds, hholds, hlast⟩ := h.exec_refines he
  exact ⟨t, he, hresponds, hholds, hlast⟩

/-! ### POLL reads only what it leaves alone -/

/-- Settles O24: the second POLL asks the block the first one left as it was, at the same time. -/
theorem pollIsIdempotent : Obligations.PollIsIdempotent := fun s =>
  ⟨_, _, _, exec_poll s, exec_poll _, responds_self _ _ s, responds_self _ _ _, fun _ => rfl, rfl, rfl⟩

end Sys2Proof.Machine
end

section
/-! PROOFS. Runs over presented events in their order (20_memory.md R48, R49): every legal event is one step and one observation,
and POLL and DECODE among them change nothing of what the others do. -/

namespace Sys2Proof

/-- A legal word is the word of the event it decodes to (30_encoding.md R66). -/
theorem eq_encode_of_decodeWord {w : Word} {i : Instr} (h : decodeWord w = .ok i) : w = encode i := by
  rw [decodeWord_eq] at h
  split_ifs at h with h1 h2 h3 htake h4 h5 <;> cases h
  · exact h1
  · exact h2
  · exact h3
  · apply BitVec.eq_of_toNat_eq
    rw [encode_take_toNat, argField_toNat]
    omega
  · exact h4
  · exact h5

end Sys2Proof

namespace Sys2Proof.Machine

/-! ### Legal events in order of time -/

/-- What a run of presented events is compared by, of an observation: its word and its time (60_exceptions.md R173). -/
def Observation.wordAndTime (o : Observation) : Word × Nat := (encode o.event, o.now)

/-- A legal event that keeps time is performed in one step, and is the one observation gained. -/
theorem step_observes {s : State} {inp : Input} {rest : List Input} (hp : s.pending = inp :: rest)
    (hlegal : inp.isLegal = true) (hn : s.now ≤ inp.now) :
    ∃ t o, step s = .next t ∧ t.pending = rest ∧ t.now = inp.now ∧ t.trace = o :: s.trace ∧
      o.wordAndTime = (inp.word, inp.now) := by
  obtain ⟨i, hd⟩ := (legal_iff inp).mp hlegal
  obtain ⟨t, he⟩ := exec_answers_next i (s.sample inp rest)
  obtain ⟨r, hr⟩ := exec_responds he
  refine ⟨t, _, (step_of_legal hp hd hn).trans he, hr.pending, hr.now, hr.trace, ?_⟩
  rw [eq_encode_of_decodeWord hd]
  rfl

/-- Legal events at non-decreasing times all run, and their observations are theirs in their order, newest first. -/
theorem run_observes {pending : List Input} {s : State} (hp : s.pending = pending)
    (hlegal : pending.all Input.isLegal = true) (hn : orderedFrom s.now pending = true) :
    ∃ t gained, run pending.length s = .next t ∧ t.pending = [] ∧ t.trace = gained ++ s.trace ∧
      gained.map Observation.wordAndTime = (pending.map fun inp => (inp.word, inp.now)).reverse := by
  induction pending generalizing s with
  | nil => exact ⟨s, [], rfl, hp, rfl, rfl⟩
  | cons inp rest ih =>
    rw [List.all_cons, Bool.and_eq_true] at hlegal
    rw [orderedFrom, Bool.and_eq_true, decide_eq_true_eq] at hn
    obtain ⟨u, o, hstep, hup, hunow, hutrace, ho⟩ := step_observes hp hlegal.1 hn.1
    obtain ⟨t, gained, hrun, htp, httrace, hgained⟩ := ih hup hlegal.2 (hunow ▸ hn.2)
    refine ⟨t, gained ++ [o], (run_succ_of_next hstep).trans hrun, htp, ?_, ?_⟩
    · rw [httrace, hutrace, List.append_assoc, List.singleton_append]
    · rw [List.map_append, hgained, List.map_singleton, ho, List.map_cons, List.reverse_cons]

/-- Settles O11: the observation gained by the run is as long as the list of presented events. -/
theorem legalEventsRunInTheirOrder : Obligations.LegalEventsRunInTheirOrder := by
  intro s hlegal hn
  obtain ⟨t, gained, hrun, hpending, htrace, hgained⟩ := run_observes rfl hlegal hn
  have hlen : gained.length = s.pending.length := by simpa using congrArg List.length hgained
  refine ⟨t, hrun, hpending, by rw [htrace, List.length_append, hlen], ?_⟩
  rw [htrace, ← hlen, List.take_left]
  exact hgained

/-! ### Leaving POLL and DECODE out

Two states agree on the block when their parameters and the block's three fields are equal. The run without POLLs and DECODEs is
never ahead in time, so an event that keeps time in the full run keeps it there too. -/

/-- The parameters and the block's three fields are equal. -/
structure AgreeOnBlock (s u : State) : Prop where
  config       : u.config = s.config
  frameBytes   : u.frameBytes = s.frameBytes
  bitCount     : u.bitCount = s.bitCount
  lastActivity : u.lastActivity = s.lastActivity

theorem AgreeOnBlock.pollValue {s u : State} (h : AgreeOnBlock s u) (now : Nat) : u.pollValue now = s.pollValue now := by
  rw [State.pollValue_eq, State.pollValue_eq, h.config, h.bitCount, h.lastActivity]

/-- Sampling writes the inputs alone. -/
theorem AgreeOnBlock.sample_left {s u : State} (h : AgreeOnBlock s u) (inp : Input) (rest : List Input) :
    AgreeOnBlock (s.sample inp rest) u :=
  ⟨h.config, h.frameBytes, h.bitCount, h.lastActivity⟩

theorem AgreeOnBlock.sample_right {s u : State} (h : AgreeOnBlock s u) (inp : Input) (rest : List Input) :
    AgreeOnBlock s (u.sample inp rest) :=
  ⟨h.config, h.frameBytes, h.bitCount, h.lastActivity⟩

theorem AgreeOnBlock.respond {s u : State} (h : AgreeOnBlock s u) (i : Instr) (r r' : Response) :
    AgreeOnBlock (s.respond i r) (u.respond i r') :=
  ⟨h.config, h.frameBytes, h.bitCount, h.lastActivity⟩

theorem AgreeOnBlock.clearFrame {s u : State} (h : AgreeOnBlock s u) : AgreeOnBlock s.clearFrame u.clearFrame :=
  ⟨h.config, by rw [State.clearFrame_frameBytes, State.clearFrame_frameBytes, h.config, h.frameBytes], rfl, h.lastActivity⟩

theorem AgreeOnBlock.edge {s u : State} (h : AgreeOnBlock s u) (hn : u.now = s.now) (b : Bool) :
    AgreeOnBlock (s.edge b) (u.edge b) where
  config       := by rw [State.edge_config, State.edge_config, h.config]
  frameBytes   := by rw [State.edge_frameBytes, State.edge_frameBytes, h.config, h.frameBytes, h.bitCount]
  bitCount     := by rw [State.edge_bitCount, State.edge_bitCount, h.config, h.bitCount]
  lastActivity := by rw [State.edge_lastActivity, State.edge_lastActivity, hn]

theorem AgreeOnBlock.symm {s u : State} (h : AgreeOnBlock s u) : AgreeOnBlock u s :=
  ⟨h.config.symm, h.frameBytes.symm, h.bitCount.symm, h.lastActivity.symm⟩

theorem AgreeOnBlock.trans {s u v : State} (h : AgreeOnBlock s u) (h' : AgreeOnBlock u v) : AgreeOnBlock s v :=
  ⟨h'.config.trans h.config, h'.frameBytes.trans h.frameBytes, h'.bitCount.trans h.bitCount,
    h'.lastActivity.trans h.lastActivity⟩

/-- An event at one time on two states that agree on the block leaves them in agreement. -/
theorem exec_agrees {i : Instr} {s t u : State} (h : AgreeOnBlock s u) (hn : u.now = s.now) (he : exec i s = .next t) :
    ∃ v, exec i u = .next v ∧ AgreeOnBlock t v := by
  have hpoll : u.pollValue u.now = s.pollValue s.now := hn ▸ h.pollValue u.now
  rcases exec_cases he with ⟨b, rfl, rfl⟩ | ⟨rfl, rfl⟩ | ⟨m, rfl, hp, rfl⟩ | ⟨m, rfl, hp, rfl⟩ | ⟨rfl, rfl⟩ | ⟨rfl, rfl⟩
  · exact ⟨_, exec_edge b u, (h.edge hn b).respond _ _ _⟩
  · exact ⟨_, exec_poll u, h.respond _ _ _⟩
  · exact ⟨_, exec_take_of_not_ready m u (hpoll.trans hp), h.respond _ _ _⟩
  · exact ⟨_, exec_take_of_ready m u (hpoll ▸ hp), h.clearFrame.respond _ _ _⟩
  · exact ⟨_, exec_reset u, h.clearFrame.respond _ _ _⟩
  · exact ⟨_, exec_decode u, h.respond _ _ _⟩

/-- A POLL or a DECODE leaves the block as it was (20_memory.md R46). -/
theorem agreeOnBlock_of_poll_or_decode {i : Instr} {s t : State} (hi : i = .poll ∨ i = .decode)
    (he : exec i s = .next t) : AgreeOnBlock s t := by
  rcases hi with rfl | rfl
  · cases he
    exact ⟨rfl, rfl, rfl, rfl⟩
  · cases he
    exact ⟨rfl, rfl, rfl, rfl⟩

theorem isPollOrDecode_iff {inp : Input} {i : Instr} (hd : decodeWord inp.word = .ok i) :
    inp.isPollOrDecode = true ↔ i = .poll ∨ i = .decode := by
  simp [Input.isPollOrDecode, hd]

/-- With an event presented, a step that answers a next state performed it. -/
theorem exec_of_step_presented {s t : State} {inp : Input} {rest : List Input} (hp : s.pending = inp :: rest)
    (h : step s = .next t) :
    ∃ i, decodeWord inp.word = .ok i ∧ s.now ≤ inp.now ∧ exec i (s.sample inp rest) = .next t := by
  rcases step_cases h with ⟨hempty, -⟩ | ⟨inp', rest', i, hp', hd, hn, he⟩
  · simp [hp] at hempty
  · obtain ⟨rfl, rfl⟩ : inp = inp' ∧ rest = rest' := by simpa using hp.symm.trans hp'
    exact ⟨i, hd, hn, he⟩

/-- The presented events that are no POLL and no DECODE. -/
def withoutPollAndDecode (pending : List Input) : List Input := pending.filter fun inp => !inp.isPollOrDecode

theorem withoutPollAndDecode_cons_skipped {inp : Input} (h : inp.isPollOrDecode = true) (rest : List Input) :
    withoutPollAndDecode (inp :: rest) = withoutPollAndDecode rest := by
  simp [withoutPollAndDecode, h]

theorem withoutPollAndDecode_cons_kept {inp : Input} (h : ¬ inp.isPollOrDecode = true) (rest : List Input) :
    withoutPollAndDecode (inp :: rest) = inp :: withoutPollAndDecode rest := by
  simp [withoutPollAndDecode, h]

/-- Beside a run of presented events, a state that agrees on the block and is not ahead in time runs those that are no POLL and no
DECODE, and ends in agreement. -/
theorem run_withoutPollAndDecode {pending : List Input} {s t u : State} (hs : s.pending = pending)
    (hu : u.pending = withoutPollAndDecode pending) (h : AgreeOnBlock s u) (hn : u.now ≤ s.now)
    (hrun : run pending.length s = .next t) :
    ∃ v, run (withoutPollAndDecode pending).length u = .next v ∧ AgreeOnBlock t v := by
  induction pending generalizing s u with
  | nil =>
    cases hrun
    exact ⟨u, rfl, h⟩
  | cons inp rest ih =>
    obtain ⟨s', hstep, hrun⟩ := run_succ_next hrun
    obtain ⟨i, hd, htime, he⟩ := exec_of_step_presented hs hstep
    obtain ⟨_, hr⟩ := exec_responds he
    have hnow : s'.now = inp.now := hr.now
    by_cases hskip : inp.isPollOrDecode = true
    · have hsame : AgreeOnBlock (s.sample inp rest) s' :=
        agreeOnBlock_of_poll_or_decode ((isPollOrDecode_iff hd).mp hskip) he
      rw [withoutPollAndDecode_cons_skipped hskip] at hu ⊢
      exact ih hr.pending hu (hsame.symm.trans (h.sample_left inp rest)) (by omega) hrun
    · rw [withoutPollAndDecode_cons_kept hskip] at hu ⊢
      obtain ⟨u', hu', hagree⟩ := exec_agrees ((h.sample_left inp rest).sample_right inp _) rfl he
      obtain ⟨_, hr'⟩ := exec_responds hu'
      have hnow' : u'.now = inp.now := hr'.now
      obtain ⟨v, hv, hend⟩ := ih hr.pending hr'.pending hagree (by omega) hrun
      exact ⟨v, (run_succ_of_next ((step_of_legal hu hd (hn.trans htime)).trans hu')).trans hv, hend⟩

/-- Settles O49: the two runs begin in agreement, so they end in it. -/
theorem pollAndDecodeLeaveTheBlockAsIfNeverIssued : Obligations.PollAndDecodeLeaveTheBlockAsIfNeverIssued := by
  intro s t hrun
  have hstart : AgreeOnBlock s (s.withPending (withoutPollAndDecode s.pending)) := ⟨rfl, rfl, rfl, rfl⟩
  obtain ⟨u, hu, -, hbytes, hcount, hlast⟩ := run_withoutPollAndDecode rfl rfl hstart (Nat.le_refl _) hrun
  exact ⟨u, hu, hbytes, hcount, hlast⟩

end Sys2Proof.Machine
end

section
/-! PROOFS. An edge and a TAKE at one time, in both orders (20_memory.md R50; 60_exceptions.md R166): what each order does to any
held frame, and from it the race below capacity and on a full buffer. -/

namespace Sys2Proof.Machine

/-! ### One step on a presented TAKE -/

/-- A TAKE's word decodes to that TAKE. -/
theorem decodeWord_take (m : BitVec 8) : decodeWord (encode (.take m)) = .ok (.take m) := by
  have hword := encode_take_toNat m
  have hm := m.isLt
  have hbelow : ∀ w : Word, w.toNat < 0x3000 → encode (.take m) ≠ w := by
    rintro w hw rfl
    omega
  have harg : argField (encode (.take m)) = m := by
    apply BitVec.eq_of_toNat_eq
    rw [argField_toNat, hword]
    omega
  rw [decodeWord_eq, if_neg (hbelow _ (by decide)), if_neg (hbelow _ (by decide)), if_neg (hbelow _ (by decide)),
    if_pos (by omega), harg]

theorem step_take {s : State} {m : BitVec 8} {time : Nat} {rest : List Input}
    (hp : s.pending = inputOf (.take m) time :: rest) (hn : s.now ≤ time) :
    step s = exec (.take m) (s.sample (inputOf (.take m) time) rest) :=
  step_of_legal hp (decodeWord_take m) hn

/-! ### The bytes a TAKE returns, those an edge leaves, and those a frame fixes -/

theorem State.length_snapshot (s : State) (len : Nat) : (s.snapshot len).length = len := by
  simp [State.snapshot]

theorem State.getElem?_snapshot (s : State) {len j : Nat} (h : j < len) : (s.snapshot len)[j]? = some (s.bufRead j) := by
  simp [State.snapshot, h]

theorem State.bufRead_of_lt {s : State} {k : Nat} (h : k < s.config.capBytes) : s.bufRead k = s.frameBytes.read k :=
  if_pos h

/-- An edge writes no byte outside the buffer (40_edge_sink.md R85). -/
theorem State.edge_read_outside (s : State) (b : Bool) {k : Nat} (hk : s.config.capBytes ≤ k) :
    (s.edge b).frameBytes.read k = s.frameBytes.read k := by
  rw [State.edge_read, if_neg]
  rintro ⟨hlt, rfl⟩
  exact Nat.not_lt.mpr hk (targetByte_lt _ _ hlt)

/-- The frame held fixes every byte of the buffer. -/
theorem State.Holds.read_eq {s t : State} {f : List Bool} (hs : s.Holds f) (ht : t.Holds f) (hc : t.config = s.config)
    {k : Nat} (hk : k < s.config.capBytes) : t.frameBytes.read k = s.frameBytes.read k := by
  rw [← State.bufRead_of_lt hk, ← State.bufRead_of_lt (hc ▸ hk), hs.bufRead, ht.bufRead]

/-! ### What one presented event leaves, with its frame named -/

/-- What `t` is after one event at `time`, when `s` is before it and `rest` is still presented: it holds `f`, its `LAST_ACTIVITY` is
`last`, nothing outside the buffer was written, and `r` is the response gained. -/
structure Performed (s t : State) (time : Nat) (rest : List Input) (f : List Bool) (last : Nat) (r : Response) : Prop where
  config    : t.config = s.config
  now       : t.now = time
  pending   : t.pending = rest
  holds     : t.Holds f
  last      : t.lastActivity = last
  outside   : ∀ k, s.config.capBytes ≤ k → t.frameBytes.read k = s.frameBytes.read k
  responses : t.trace.map Observation.response = r :: s.trace.map Observation.response

theorem State.Holds.step_edge {s : State} {f : List Bool} (h : s.Holds f) {b : Bool} {time : Nat} {rest : List Input}
    (hp : s.pending = inputOf (.edge b) time :: rest) (hn : s.now ≤ time) :
    ∃ t, step s = .next t ∧
      Performed s t time rest (if f.length < s.config.maxBits then f ++ [b] else f) time .none := by
  refine ⟨_, Machine.step_edge hp hn, ?_⟩
  constructor
  · simp
  · simp [inputOf]
  · simp
  · exact ((h.sample _ _).edge b).respond _ _
  · simp [inputOf]
  · exact fun k hk => State.edge_read_outside (s.sample _ rest) b hk
  · simp

/-- A ready TAKE (41_frame_reader.md R102). -/
theorem State.Holds.step_take_of_ready {s : State} {f : List Bool} (h : s.Holds f) {m : BitVec 8} {time : Nat}
    {rest : List Input} (hp : s.pending = inputOf (.take m) time :: rest) (hn : s.now ≤ time) (hf : 0 < f.length)
    (hready : s.lastActivity + s.config.idleThreshold < time) :
    ∃ t, step s = .next t ∧
      Performed s t time rest [] s.lastActivity (.frame f.length (s.snapshot (takeLength f.length m))) := by
  have hpoll : s.pollValue time ≠ 0 := (h.pollValue_ne_zero_iff time).mpr ⟨hf, hready⟩
  rw [step_take hp hn, ← h.count]
  refine ⟨_, exec_take_of_ready m _ hpoll, rfl, rfl, rfl, ?_, rfl, fun k hk => ?_, rfl⟩
  · exact (State.clearFrame_holds_nil _).respond _ _
  · exact (cleared_clearFrame _ _ (s.sample _ rest)).outside k hk

/-- A TAKE within the threshold of the last edge (60_exceptions.md R163). -/
theorem State.Holds.step_take_of_not_idle {s : State} {f : List Bool} (h : s.Holds f) {m : BitVec 8} {time : Nat}
    {rest : List Input} (hp : s.pending = inputOf (.take m) time :: rest) (hn : s.now ≤ time)
    (hidle : time ≤ s.lastActivity + s.config.idleThreshold) :
    ∃ t, step s = .next t ∧ Performed s t time rest f s.lastActivity (.frame 0 []) := by
  have hpoll : s.pollValue time = 0 := (State.pollValue_eq_zero_iff s time).mpr (.inr hidle)
  rw [step_take hp hn]
  refine ⟨_, exec_take_of_not_ready m _ hpoll, rfl, rfl, rfl, ?_, rfl, fun k hk => rfl, rfl⟩
  exact (h.sample _ _).respond _ _

/-! ### The two orders -/

/-- What `t` is after two presented events on `s` at one time, of which the second responded `r` and the first `r'`. -/
structure RanTwo (s t : State) (time : Nat) (rest : List Input) (f : List Bool) (r r' : Response) : Prop where
  config    : t.config = s.config
  pending   : t.pending = rest
  holds     : t.Holds f
  last      : t.lastActivity = time
  outside   : ∀ k, s.config.capBytes ≤ k → t.frameBytes.read k = s.frameBytes.read k
  responses : (t.trace.map Observation.response).take 2 = [r, r']

theorem Performed.then {s u t : State} {time last : Nat} {next rest : List Input} {f g : List Bool} {r r' : Response}
    (h' : Performed s u time next g last r') (h : Performed u t time rest f time r) : RanTwo s t time rest f r r' where
  config    := h.config.trans h'.config
  pending   := h.pending
  holds     := h.holds
  last      := h.last
  outside   := fun k hk => (h.outside k (h'.config ▸ hk)).trans (h'.outside k hk)
  responses := by rw [h.responses, h'.responses]; rfl

/-- What was presented when the two events began does not enter. -/
theorem RanTwo.of_withPending {s t : State} {presented rest : List Input} {time : Nat} {f : List Bool} {r r' : Response}
    (h : RanTwo (s.withPending presented) t time rest f r r') : RanTwo s t time rest f r r' :=
  ⟨h.config, h.pending, h.holds, h.last, h.outside, h.responses⟩

theorem run_two {s u t : State} (h : step s = .next u) (h' : step u = .next t) : run 2 s = .next t := by
  rw [run_succ_of_next h, run_succ_of_next h', run_zero]

/-- TAKE first: it returns the held frame, and the edge's bit is the whole of the next one. -/
theorem State.Holds.run_take_edge {s : State} {f : List Bool} {time : Nat} (h : s.Holds f) (hf : 0 < f.length)
    (hn : s.now ≤ time) (hready : s.lastActivity + s.config.idleThreshold < time) (b : Bool) (m : BitVec 8)
    (rest : List Input) :
    ∃ t, run 2 (s.withPending (inputOf (.take m) time :: inputOf (.edge b) time :: rest)) = .next t ∧
      RanTwo s t time rest [b] .none (.frame f.length (s.snapshot (takeLength f.length m))) := by
  have hstart := h.withPending (inputOf (.take m) time :: inputOf (.edge b) time :: rest)
  obtain ⟨u, hu, htake⟩ := hstart.step_take_of_ready rfl hn hf hready
  obtain ⟨t, ht, hedge⟩ := htake.holds.step_edge htake.pending htake.now.le
  have hroom : ([] : List Bool).length < u.config.maxBits := hf.trans_le (htake.config ▸ h.within)
  rw [if_pos hroom, List.nil_append] at hedge
  exact ⟨t, run_two hu ht, (htake.then hedge).of_withPending⟩

/-- Edge first: its bit joins the held frame or is dropped, and the TAKE finds no frame ready, since the edge recorded its time. -/
theorem State.Holds.run_edge_take {s : State} {f : List Bool} {time : Nat} (h : s.Holds f) (hn : s.now ≤ time) (b : Bool)
    (m : BitVec 8) (rest : List Input) :
    ∃ t, run 2 (s.withPending (inputOf (.edge b) time :: inputOf (.take m) time :: rest)) = .next t ∧
      RanTwo s t time rest (if f.length < s.config.maxBits then f ++ [b] else f) (.frame 0 []) .none := by
  have hstart := h.withPending (inputOf (.edge b) time :: inputOf (.take m) time :: rest)
  obtain ⟨u, hu, hedge⟩ := hstart.step_edge rfl hn
  have hidle : time ≤ u.lastActivity + u.config.idleThreshold := by rw [hedge.last]; omega
  obtain ⟨t, ht, htake⟩ := hedge.holds.step_take_of_not_idle hedge.pending hedge.now.le hidle
  rw [hedge.last] at htake
  exact ⟨t, run_two hu ht, (hedge.then htake).of_withPending⟩

/-- Settles O46: below capacity every byte the TAKE returns is storage, and the edge that comes first has room. -/
theorem edgeRacingATakeIsInExactlyOneFrame : Obligations.EdgeRacingATakeIsInExactlyOneFrame := by
  intro s f b m time rest h hf hroom hn hready
  constructor
  · obtain ⟨t, hrun, hend⟩ := h.run_take_edge hf hn hready b m rest
    refine ⟨t, _, hrun, hend.pending, hend.holds, hend.last, hend.outside, hend.responses, s.length_snapshot _,
      fun j hj => ?_⟩
    rw [s.length_snapshot] at hj
    have hneeded : takeLength f.length m ≤ f.length / 8 + 1 := Nat.min_le_left _ _
    have hstorage : j < s.config.capBytes := by
      have := targetByte_lt s.config f.length hroom
      unfold targetByte at this
      omega
    rw [s.getElem?_snapshot hj, State.bufRead_of_lt hstorage]
  · obtain ⟨t, hrun, hend⟩ := h.run_edge_take hn b m rest
    have hholds := hend.holds
    rw [if_pos hroom] at hholds
    exact ⟨t, hrun, hend.pending, hholds, hend.last, hend.outside, hend.responses⟩

/-- Settles O51: the bytes of a full frame are all the storage and one more, and the edge that comes first has no room. -/
theorem edgeRacingATakeOnAFullBufferIsNextOrDropped : Obligations.EdgeRacingATakeOnAFullBufferIsNextOrDropped := by
  intro s f b m time rest hlegal h hfull hn hready
  constructor
  · have hcap : 1 ≤ s.config.capBytes := by
      rw [Config.legal, Bool.and_eq_true, decide_eq_true_eq] at hlegal
      exact hlegal.1
    have hf : 0 < f.length := by
      rw [hfull, Config.maxBits]
      omega
    have hlen : takeLength s.config.maxBits m = min (s.config.capBytes + 1) m.toNat := by
      rw [takeLength, neededBytes, Config.maxBits, Nat.mul_div_cancel_left _ (by norm_num)]
      rfl
    obtain ⟨t, hrun, hend⟩ := h.run_take_edge hf hn hready b m rest
    have hresponses := hend.responses
    rw [hfull, hlen] at hresponses
    refine ⟨t, _, hrun, hend.pending, hend.holds, hend.last, hend.outside, hresponses, s.length_snapshot _, fun j hj => ?_⟩
    rw [s.length_snapshot] at hj
    exact s.getElem?_snapshot hj
  · obtain ⟨t, hrun, hend⟩ := h.run_edge_take hn b m rest
    have hholds := hend.holds
    rw [if_neg (by omega)] at hholds
    refine ⟨t, hrun, hend.pending, hholds, hend.last, fun k => ?_, hend.responses⟩
    rcases Nat.lt_or_ge k s.config.capBytes with hk | hk
    · exact h.read_eq hholds hend.config hk
    · exact hend.outside k hk

end Sys2Proof.Machine
end

section
/-! PROOFS. The event map (30_encoding.md R60 to R69): decode and encode agree in both directions, a word matches one row or is
illegal, the illegal words by number, and where each operand comes from. -/

namespace Sys2Proof

/-! ### Decode of encode -/

/-- The decoder reads every event from its word (30_encoding.md R66). -/
theorem decodeWord_encode (i : Instr) : decodeWord (encode i) = .ok i := by
  cases i with
  | edge0 => exact Machine.decodeWord_edge false
  | edge1 => exact Machine.decodeWord_edge true
  | poll => rfl
  | take m => exact Machine.decodeWord_take m
  | reset => rfl
  | decode => rfl

/-- A 16-bit word is its own table word (30_encoding.md R69). -/
theorem tableWord_toNat (w : Word) : tableWord 16 w.toNat = w := by
  rw [tableWord, Nat.mod_eq_of_lt w.isLt, BitVec.ofNat_toNat, BitVec.setWidth_eq]

theorem decodeTableWord_toNat {w : Word} {i : Instr} (h : decodeWord w = .ok i) :
    decodeTableWord 16 w.toNat = some i := by
  rw [decodeTableWord, if_pos (Nat.le_refl 16), tableWord_toNat, h]

/-- Settles O2, event by event. -/
theorem decodeOfEncodeIsTheEvent : Obligations.DecodeOfEncodeIsTheEvent := fun i =>
  ⟨decodeWord_encode i, decodeTableWord_toNat (decodeWord_encode i)⟩

/-- Settles O3. -/
theorem legalWordIsTheWordOfItsEvent : Obligations.LegalWordIsTheWordOfItsEvent := fun _ _ h =>
  eq_encode_of_decodeWord h

/-- Settles O1: the legal words are those of their events, and the reasons for rejecting the others are computed. -/
theorem specWordsDecodeAsListed : Obligations.SpecWordsDecodeAsListed :=
  ⟨decodeWord_encode .edge0, decodeWord_encode .edge1, decodeWord_encode .poll, decodeWord_encode (.take 0),
    decodeWord_encode (.take 8), decodeWord_encode (.take 255), decodeWord_encode .reset, decodeWord_encode .decode,
    rfl, rfl, rfl, rfl, rfl, rfl⟩

/-! ### Rows -/

theorem EventRow.covers_iff (r : EventRow) (w : Word) : r.covers w = true ↔ w &&& r.mask = r.pattern := by
  rw [EventRow.covers, beq_iff_eq]

/-- Two rows that cover one word agree on it wherever both look. -/
theorem EventRow.agree_of_covers {r r' : EventRow} {w : Word} (h : r.covers w = true) (h' : r'.covers w = true) :
    r.pattern &&& r'.mask = r'.pattern &&& r.mask := by
  rw [EventRow.covers_iff] at h h'
  rw [← h, ← h', BitVec.and_assoc, BitVec.and_assoc, BitVec.and_comm r.mask]

/-- In a list of which no two elements satisfy `p`, at most one does. -/
theorem countP_le_one {α : Type} {p : α → Bool} {l : List α} (h : l.Pairwise fun a b => ¬(p a = true ∧ p b = true)) :
    l.countP p ≤ 1 := by
  induction h with
  | nil => exact Nat.zero_le 1
  | @cons a l ha _ ih =>
    by_cases hp : p a = true
    · have hrest : l.countP p = 0 := List.countP_eq_zero.mpr fun b hb hpb => ha b hb ⟨hp, hpb⟩
      rw [List.countP_cons_of_pos hp, hrest]
    · rwa [List.countP_cons_of_neg hp]

theorem countP_covers_le_one (w : Word) : eventRows.countP (fun r => r.covers w) ≤ 1 :=
  countP_le_one (eventRows_disjoint.imp fun hne h => hne (EventRow.agree_of_covers h.1 h.2))

/-- A word is illegal exactly when no row covers it (30_encoding.md R67). -/
theorem illegal_iff_no_row (w : Word) :
    (∃ why, decodeWord w = .error why) ↔ ∀ r ∈ eventRows, ¬r.covers w = true := by
  rw [← List.find?_eq_none, decodeWord]
  cases eventRows.find? (fun r => r.covers w) <;> simp

theorem argField_eq_ofNat (w : Word) : argField w = BitVec.ofNat 8 w.toNat := by
  apply BitVec.eq_of_toNat_eq
  rw [argField_toNat, BitVec.toNat_ofNat]

/-- A word of TAKE's row is the word of a TAKE of its low byte (30_encoding.md R62). -/
theorem decodeWord_of_high_byte {w : Word} (h : w.toNat / 2 ^ 8 = 0x30) :
    decodeWord w = .ok (.take (BitVec.ofNat 8 w.toNat)) := by
  have hw : w = encode (.take (BitVec.ofNat 8 w.toNat)) := by
    apply BitVec.eq_of_toNat_eq
    rw [encode_take_toNat, BitVec.toNat_ofNat]
    omega
  rw [hw, decodeWord_encode, ← hw]

/-- A word whose every bit a row fixes decodes as the word of that row's event. -/
theorem decodeWord_of_full_mask {w : Word} {i : Instr} (h : w &&& 0xFFFF#16 = encode i) : decodeWord w = .ok i := by
  rw [← and_full_mask w, h, decodeWord_encode]

/-- Settles O4: each row by its own match and mask, and the count of rows is at most one. -/
theorem wordMatchesExactlyOneRowOrIsIllegal : Obligations.WordMatchesExactlyOneRowOrIsIllegal := by
  intro w
  refine ⟨decodeWord_of_full_mask (i := .edge0), decodeWord_of_full_mask (i := .edge1),
    decodeWord_of_full_mask (i := .poll), fun h => decodeWord_of_high_byte ((and_high_mask_iff w).mp h),
    decodeWord_of_full_mask (i := .reset), decodeWord_of_full_mask (i := .decode), ?_⟩
  have hillegal : (∃ why, decodeWord w = .error why) ↔ eventRows.countP (fun r => r.covers w) = 0 :=
    (illegal_iff_no_row w).trans List.countP_eq_zero.symm
  match hd : decodeWord w with
  | .error why => exact .inr ⟨hillegal.mp ⟨why, hd⟩, why, rfl⟩
  | .ok i =>
    have hsome : eventRows.countP (fun r => r.covers w) ≠ 0 := fun h0 => by
      obtain ⟨why, hwhy⟩ := hillegal.mpr h0
      cases hd.symm.trans hwhy
    have hone := countP_covers_le_one w
    exact .inl ⟨by omega, i, rfl⟩

/-! ### Illegal words -/

theorem illegal_iff_no_match (w : Word) :
    (∃ why, decodeWord w = .error why) ↔ ∀ r ∈ eventRows, w &&& r.mask ≠ r.pattern := by
  simp only [illegal_iff_no_row, EventRow.covers_iff, Ne]

/-- The illegal words: none of the five single words, and not among TAKE's 256. -/
theorem illegal_iff (w : Word) : (∃ why, decodeWord w = .error why) ↔
    w ≠ 0x1000#16 ∧ w ≠ 0x1001#16 ∧ w ≠ 0x2000#16 ∧ w.toNat / 2 ^ 8 ≠ 0x30 ∧ w ≠ 0x4000#16 ∧ w ≠ 0x5000#16 := by
  rw [illegal_iff_no_match]
  simp [eventRows, and_full_mask, and_high_mask_iff]

/-- Settles O5: as numbers below `2^16`, the words of no row are those of R67's list. -/
theorem illegalWordsAreTheListedOnesAndAreRefused : Obligations.IllegalWordsAreTheListedOnesAndAreRefused := by
  refine ⟨fun w => ?_, illegal_iff_no_match, ⟨.reservedOp, rfl⟩, fun s inp rest why => Machine.step_of_illegal⟩
  have hw := w.isLt
  simp only [illegal_iff, Ne, ← BitVec.toNat_inj, BitVec.toNat_ofNat]
  omega

/-! ### Operands -/

theorem eq_edge_of_edgeBit {i : Instr} {b : Bool} (h : i.edgeBit = some b) : i = .edge b := by
  cases i <;> cases h <;> rfl

end Sys2Proof

namespace Sys2Proof.Machine

/-- What stands on the raw port is sampled whole when it fits the port (30_encoding.md R65). -/
theorem State.sample_decRaw_of_fits {s : State} {inp : Input} (hf : inp.fits s.config = true) (rest : List Input) :
    (s.sample inp rest).decRaw = inp.decRaw :=
  Nat.mod_eq_of_lt (of_decide_eq_true hf)

/-- One step on a presented DECODE whose raw value fits its port. -/
theorem step_decode {s : State} {inp : Input} {rest : List Input} (hp : s.pending = inp :: rest)
    (hd : decodeWord inp.word = .ok .decode) (hn : s.now ≤ inp.now) (hf : inp.fits s.config = true) :
    step s = .next ((s.sample inp rest).respond .decode (.decoded (decodeFields s.config inp.decN inp.decRaw))) := by
  rw [step_of_legal hp hd hn, exec_decode, State.sample_decRaw_of_fits hf rest]
  rfl

/-- Settles O7: the word of a TAKE or an edge fixes its operand, and DECODE answers with its ports. -/
theorem operandsComeFromWordAndPorts : Obligations.OperandsComeFromWordAndPorts := by
  refine ⟨fun w m hd => ?_, fun w i b hd hb => ?_, fun s inp rest hp hd hn hf => ⟨_, step_decode hp hd hn hf, ?_⟩⟩
  · have hm := m.isLt
    rw [eq_encode_of_decodeWord hd, encode_take_toNat, maxBytesValue]
    omega
  · rw [eq_encode_of_decodeWord hd, eq_edge_of_edgeBit hb]
    cases b <;> exact ⟨rfl, rfl⟩
  · rw [State.respond_trace, State.operandsOf, State.sample_decRaw_of_fits hf]
    rfl

end Sys2Proof.Machine
end

section
/-! PROOFS. A card presented and read (30_encoding.md R71; 60_exceptions.md R170): a run of edges gathers their bits, READ asks for a
DECODE of the frame's value, and the default formats take the two codes from it. -/

namespace Sys2Proof.Machine

/-! ### A run of edges -/

/-- What `t` is after `edges` were performed on `s`, which held `f`, with `rest` still presented: nothing but their bits, and the
time of the last. -/
structure Gathered (s t : State) (edges : List (Bool × Nat)) (rest : List Input) (f : List Bool) : Prop where
  config  : t.config = s.config
  pending : t.pending = rest
  holds   : t.Holds (f ++ edges.map Prod.fst)
  now     : t.now = (edges.map Prod.snd).getLastD s.now
  last    : t.lastActivity = (edges.map Prod.snd).getLastD s.lastActivity

/-- Edges that keep time and have room append their bits to the held frame (40_edge_sink.md R86). -/
theorem State.Holds.run_edges {edges : List (Bool × Nat)} {s : State} {f : List Bool} {rest : List Input}
    (h : s.Holds f) (hp : s.pending = edgeInputs edges ++ rest) (hn : orderedFrom s.now (edgeInputs edges) = true)
    (hroom : f.length + edges.length ≤ s.config.maxBits) :
    ∃ t, run edges.length s = .next t ∧ Gathered s t edges rest f := by
  induction edges generalizing s f with
  | nil => exact ⟨s, rfl, rfl, hp, by simpa using h, rfl, rfl⟩
  | cons e edges ih =>
    obtain ⟨b, time⟩ := e
    have hn : s.now ≤ time ∧ orderedFrom time (edgeInputs edges) = true := by
      simpa [edgeInputs, orderedFrom, inputOf] using hn
    rw [List.length_cons] at hroom
    obtain ⟨u, hstep, hu⟩ := h.step_edge hp hn.1
    have hholds := hu.holds
    rw [if_pos (by omega)] at hholds
    obtain ⟨t, hrun, ht⟩ := ih hholds hu.pending (hu.now.symm ▸ hn.2) (by
      rw [hu.config, List.length_append, List.length_singleton]
      omega)
    refine ⟨t, (run_succ_of_next hstep).trans hrun, ht.config.trans hu.config, ht.pending, ?_, ?_, ?_⟩
    · simpa using ht.holds
    · rw [ht.now, hu.now, List.map_cons, List.getLastD_cons]
    · rw [ht.last, hu.last, List.map_cons, List.getLastD_cons]

/-! ### The edges of a FRAME -/

/-- The edges of a FRAME from its bit `k` on, at pitch `dt`. -/
def pitchedEdges (t0 dt k : Nat) (bits : List Bool) : List (Bool × Nat) :=
  (bits.zipIdx k).map fun bi => (bi.1, t0 + bi.2 * dt)

theorem pitchedEdges_cons (t0 dt k : Nat) (b : Bool) (bits : List Bool) :
    pitchedEdges t0 dt k (b :: bits) = (b, t0 + k * dt) :: pitchedEdges t0 dt (k + 1) bits := rfl

theorem frameEvents_eq (t0 dt n v : Nat) : frameEvents t0 dt n v = edgeInputs (pitchedEdges t0 dt 0 (bitsOf n v)) := by
  simp [frameEvents, bitsEvents, edgeInputs, pitchedEdges]

@[simp] theorem map_fst_pitchedEdges (t0 dt k : Nat) (bits : List Bool) :
    (pitchedEdges t0 dt k bits).map Prod.fst = bits := by
  simp [pitchedEdges, Function.comp_def]

@[simp] theorem length_pitchedEdges (t0 dt k : Nat) (bits : List Bool) :
    (pitchedEdges t0 dt k bits).length = bits.length := by
  simp [pitchedEdges]

theorem orderedFrom_pitchedEdges {t0 dt k start : Nat} (h : start ≤ t0 + k * dt) (bits : List Bool) :
    orderedFrom start (edgeInputs (pitchedEdges t0 dt k bits)) = true := by
  induction bits generalizing k start with
  | nil => rfl
  | cons b bits ih =>
    have hrest := ih (k := k + 1) (start := t0 + k * dt) (by rw [Nat.succ_mul]; omega)
    simpa [pitchedEdges_cons, edgeInputs, orderedFrom, inputOf, h] using hrest

theorem lastTime_pitchedEdges (t0 dt k start : Nat) (b : Bool) (bits : List Bool) :
    ((pitchedEdges t0 dt k (b :: bits)).map Prod.snd).getLastD start = t0 + (k + bits.length) * dt := by
  induction bits generalizing k b start with
  | nil => rfl
  | cons b' bits ih =>
    rw [pitchedEdges_cons, List.map_cons, List.getLastD_cons, ih, List.length_cons]
    congr 2
    omega

@[simp] theorem length_bitsOf (n v : Nat) : (bitsOf n v).length = n := by
  simp [bitsOf]

/-- The bits of a FRAME spell its value. -/
theorem rawValueOf_bitsOf {n v : Nat} (h : v < 2 ^ n) : rawValueOf (bitsOf n v) = v := by
  symm
  apply eq_rawValueOf
  · rwa [length_bitsOf]
  · intro j hj
    rw [length_bitsOf] at hj ⊢
    simp [frameBit, bitsOf, hj]

/-- What a FRAME leaves after power-on: its bits, and the time of its last edge. -/
theorem run_frameEvents {c : Config} (draw t0 dt : Nat) {n : Nat} (v : Nat) (hn : 0 < n) (hroom : n ≤ c.maxBits) :
    ∃ t, run n ((State.powerOn c draw).withPending (frameEvents t0 dt n v)) = .next t ∧ t.config = c ∧
      t.Holds (bitsOf n v) ∧ t.now = t0 + (n - 1) * dt ∧ t.lastActivity = t0 + (n - 1) * dt := by
  have hstart : ((State.powerOn c draw).withPending (frameEvents t0 dt n v)).Holds [] :=
    (State.holds_nil rfl fun _ _ => rfl : (State.powerOn c draw).Holds []).withPending _
  obtain ⟨t, hrun, ht⟩ := hstart.run_edges (edges := pitchedEdges t0 dt 0 (bitsOf n v)) (rest := [])
    (by simp [frameEvents_eq]) (orderedFrom_pitchedEdges (Nat.zero_le _) _) (by simpa using hroom)
  have hlast : ∀ start, ((pitchedEdges t0 dt 0 (bitsOf n v)).map Prod.snd).getLastD start = t0 + (n - 1) * dt := by
    intro start
    obtain ⟨b, bits, hbits⟩ := List.exists_cons_of_length_pos ((length_bitsOf n v).symm ▸ hn)
    have hlen : bits.length + 1 = n := by rw [← length_bitsOf n v, hbits, List.length_cons]
    rw [hbits, lastTime_pitchedEdges, Nat.zero_add, ← hlen, Nat.add_sub_cancel]
  rw [length_pitchedEdges, length_bitsOf] at hrun
  exact ⟨t, hrun, ht.config, by simpa using ht.holds, ht.now.trans (hlast _), ht.last.trans (hlast _)⟩

/-! ### READ -/

/-- With room for all its bytes, a TAKE of a held frame returns bytes whose FrameValue is the frame's value
(42_field_decoder.md R131). -/
theorem State.Holds.frameValue_snapshot {s : State} {f : List Bool} (h : s.Holds f) {m : BitVec 8}
    (hm : f.length / 8 + 1 ≤ m.toNat) : frameValue f.length (s.snapshot (takeLength f.length m)) = rawValueOf f := by
  obtain ⟨-, hwithin, hbytes⟩ := (State.holds_iff_chunks s f).mp h
  have hlen : takeLength f.length m = f.length / 8 + 1 := Nat.min_eq_left hm
  apply frameValue_of_chunks
  intro j hj
  have hstorage : j < s.config.capBytes := by
    unfold Config.maxBits at hwithin
    omega
  rw [returnedByte, List.getD_eq_getElem?_getD, s.getElem?_snapshot (by omega), Option.getD_some,
    State.bufRead_of_lt hstorage, hbytes j hstorage]

/-- READ is its TAKE, then whatever the TAKE's response asks for (30_encoding.md R71). -/
theorem readEvents_eq {s u : State} {time : Nat} {m : BitVec 8} {o : Observation} {older : List Observation}
    (h : exec (.take m) (s.withNow time) = .next u) (htrace : u.trace = o :: older) :
    readEvents s time m = inputOf (.take m) time :: readFollowUp time o.response := by
  rw [State.withNow] at h
  simp [readEvents, h, htrace]

/-- READ of a ready frame with room is a TAKE, then a DECODE of the frame's length and value (30_encoding.md R71). -/
theorem State.Holds.readEvents_of_ready {s : State} {f : List Bool} (h : s.Holds f) {m : BitVec 8} {time : Nat}
    (hf : 0 < f.length) (hport : f.length < 2 ^ 9) (hready : s.lastActivity + s.config.idleThreshold < time)
    (hm : f.length / 8 + 1 ≤ m.toNat) :
    readEvents s time m =
      [inputOf (.take m) time, decodeInput time (BitVec.ofNat 9 f.length) (rawValueOf f)] := by
  have hpoll : (s.withNow time).pollValue time ≠ 0 := (h.pollValue_ne_zero_iff time).mpr ⟨hf, hready⟩
  have hvalue : frameValue f.length ((s.withNow time).snapshot (takeLength f.length m)) = rawValueOf f :=
    h.frameValue_snapshot hm
  rw [readEvents_eq (exec_take_of_ready m _ hpoll) rfl, State.withNow_bitCount, h.count, readFollowUp,
    if_pos ⟨hf, hport⟩, hvalue]

/-- READ performed on a ready frame with room leaves the block empty, and the DECODE of the frame's value is the latest
observation. -/
theorem State.Holds.run_readEvents {s : State} {f : List Bool} (h : s.Holds f) {m : BitVec 8} {time : Nat}
    (hf : 0 < f.length) (hport : f.length < 2 ^ 9) (hn : s.now ≤ time)
    (hready : s.lastActivity + s.config.idleThreshold < time) (hm : f.length / 8 + 1 ≤ m.toNat) :
    ∃ u o older, run 2 (s.withPending (readEvents s time m)) = .next u ∧ u.bitCount = 0 ∧ u.pending = [] ∧
      u.trace = o :: older ∧ o.event = .decode ∧
      o.response = .decoded (decodeFields s.config (BitVec.ofNat 9 f.length) (rawValueOf f)) := by
  rw [h.readEvents_of_ready hf hport hready hm]
  have hstart := h.withPending
    [inputOf (.take m) time, decodeInput time (BitVec.ofNat 9 f.length) (rawValueOf f)]
  obtain ⟨t, ht, htake⟩ := hstart.step_take_of_ready rfl hn hf hready
  have hfits : (decodeInput time (BitVec.ofNat 9 f.length) (rawValueOf f)).fits t.config = true := by
    rw [htake.config]
    exact decide_eq_true ((rawValueOf_lt f).trans_le (Nat.pow_le_pow_right (by norm_num) h.within))
  have hu := step_decode htake.pending (decodeWord_encode .decode) htake.now.le hfits
  rw [htake.config] at hu
  exact ⟨_, _, _, run_two ht hu, htake.holds.count, rfl, rfl, rfl, rfl⟩

/-! ### The default formats -/

/-- DECODE by a format whose card code is bits 16:1 and whose facility code is the `facBits` bits from 17 on, at the default
multiplier (42_field_decoder.md R134, R135, R137). -/
theorem decodeFields_of_format {c : Config} {n : BitVec 9} {facBits : Nat} (v : Nat) (hbits : facBits ≤ 16)
    (hmult : c.combineMult = 100000) (hformat : formatOf c n.toNat =
      some { len := n.toNat, facShift := 17, facMask := 2 ^ facBits - 1, cardShift := 1, cardMask := 0xFFFF }) :
    decodeFields c n v =
      { bitCount := n, rawValue := v,
        facilityCode := some (v / 2 ^ 17 % 2 ^ facBits), cardCode := some (v / 2 % 2 ^ 16),
        combinedValue := some (BitVec.ofNat 64 (v / 2 ^ 17 % 2 ^ facBits * 100000 + v / 2 % 2 ^ 16)) } := by
  have hfac : v / 2 ^ 17 % 2 ^ facBits < 2 ^ 16 :=
    (Nat.mod_lt _ (by positivity)).trans_le (Nat.pow_le_pow_right (by norm_num) hbits)
  have hexact : v / 2 ^ 17 % 2 ^ facBits * 100000 + v / 2 % 2 ^ 16 < 2 ^ 64 := by omega
  simp only [decodeFields, hformat, facilityOf, cardOf, Nat.shiftRight_eq_div_pow, Nat.and_two_pow_sub_one_eq_mod,
    and_mask16, pow_one, combinedOf, hmult, if_pos hexact]

/-- The two default formats (42_field_decoder.md R134, R135). -/
theorem decodeFields_default {n facBits : Nat} (hn : (n = 26 ∧ facBits = 8) ∨ (n = 34 ∧ facBits = 16)) (v : Nat) :
    decodeFields Config.default (BitVec.ofNat 9 n) v =
      { bitCount := BitVec.ofNat 9 n, rawValue := v,
        facilityCode := some (v / 2 ^ 17 % 2 ^ facBits), cardCode := some (v / 2 % 2 ^ 16),
        combinedValue := some (BitVec.ofNat 64 (v / 2 ^ 17 % 2 ^ facBits * 100000 + v / 2 % 2 ^ 16)) } := by
  rcases hn with ⟨rfl, rfl⟩ | ⟨rfl, rfl⟩
  · exact decodeFields_of_format v (by norm_num) rfl rfl
  · exact decodeFields_of_format v (by norm_num) rfl rfl

/-- Settles O34: FRAME leaves the bits of `v`, and READ decodes their value. -/
theorem presentedCardIsDecoded : Obligations.PresentedCardIsDecoded := by
  intro draw t0 dt time n v m facBits hn hv hready hm
  have hbounds : 0 < n ∧ n ≤ 256 := by omega
  obtain ⟨t, hrun, hconfig, hholds, hnow, hlast⟩ :=
    run_frameEvents (c := Config.default) draw t0 dt v hbounds.1 hbounds.2
  have hthreshold : t.config.idleThreshold = 4000000 := by rw [hconfig]; rfl
  obtain ⟨u, o, older, hread, hcount, hpending, htrace, hevent, hresponse⟩ := hholds.run_readEvents (m := m) (time := time)
    (by simpa using hbounds.1) (by rw [length_bitsOf]; omega) (by omega) (by omega) (by simpa using hm)
  refine ⟨t, u, hrun, hread, hcount, hpending, o, older, htrace, hevent, ?_⟩
  rw [hresponse, hconfig, length_bitsOf, rawValueOf_bitsOf hv, decodeFields_default hn]

end Sys2Proof.Machine
end

section
/-! PROOFS. EdgeSink (40_edge_sink.md): what one edge does to the block, what a run of edges does to the count and the time, and
what edges from an empty buffer spell when a TAKE returns them. -/

namespace Sys2Proof.Machine

/-! ### One edge -/

/-- Settles O12: the byte an edge leaves at each index, at the target and below capacity the shifted one. -/
theorem edgeAppendsItsBitOrDropsItAtCapacity : Obligations.EdgeAppendsItsBitOrDropsItAtCapacity := by
  intro b s
  refine ⟨_, exec_edge b s, responds_edge b s, s.edge_lastActivity b, fun hroom => ⟨?_, ?_, fun k hk => ?_⟩,
    fun hfull => ⟨?_, fun k => ?_⟩⟩
  · rw [State.respond_bitCount, State.edge_bitCount, if_pos hroom]
  · rw [State.respond_frameBytes, State.edge_read, if_pos ⟨hroom, rfl⟩, shiftIn_toNat]
  · rw [State.respond_frameBytes, State.edge_read, if_neg fun h => hk h.2]
  · rw [State.respond_bitCount, State.edge_bitCount, if_neg hfull.not_gt]
  · rw [State.respond_frameBytes, State.edge_read, if_neg fun h => hfull.not_gt h.1]

/-- The count saturates at `MAX_BITS` (10_state.md R21). -/
theorem State.edge_bitCount_eq_min {s : State} (h : s.bitCount ≤ s.config.maxBits) (b : Bool) :
    (s.edge b).bitCount = min (s.bitCount + 1) s.config.maxBits := by
  rw [State.edge_bitCount]
  split_ifs <;> omega

/-! ### A run of edges, whatever the bytes hold -/

theorem orderedFrom_edgeInputs_cons (start : Nat) (e : Bool × Nat) (edges : List (Bool × Nat)) :
    orderedFrom start (edgeInputs (e :: edges)) = true ↔ start ≤ e.2 ∧ orderedFrom e.2 (edgeInputs edges) = true := by
  simp [edgeInputs, orderedFrom, inputOf]

/-- What `t` is after `edges` were performed on `s` with `rest` still presented: the count gained them up to capacity, the last
one's time stands, and nothing outside the buffer was written. -/
structure Counted (s t : State) (edges : List (Bool × Nat)) (rest : List Input) : Prop where
  config   : t.config = s.config
  pending  : t.pending = rest
  bitCount : t.bitCount = min (s.bitCount + edges.length) s.config.maxBits
  last     : t.lastActivity = (edges.map Prod.snd).getLastD s.lastActivity
  outside  : ∀ k, s.config.capBytes ≤ k → t.frameBytes.read k = s.frameBytes.read k

/-- One edge, at capacity or below it. -/
theorem step_edge_counted {s : State} {b : Bool} {time : Nat} {rest : List Input}
    (hp : s.pending = inputOf (.edge b) time :: rest) (hn : s.now ≤ time) (hcount : s.bitCount ≤ s.config.maxBits) :
    ∃ u, step s = .next u ∧ u.now = time ∧ Counted s u [(b, time)] rest := by
  refine ⟨_, step_edge hp hn, State.edge_now _ b, ?_⟩
  constructor
  · exact State.edge_config _ b
  · exact State.edge_pending _ b
  · exact State.edge_bitCount_eq_min (s := s.sample _ rest) hcount b
  · exact State.edge_lastActivity _ b
  · exact fun k hk => State.edge_read_outside (s.sample _ rest) b hk

theorem Counted.cons {s u t : State} {e : Bool × Nat} {edges : List (Bool × Nat)} {next rest : List Input}
    (h : Counted s u [e] next) (h' : Counted u t edges rest) : Counted s t (e :: edges) rest where
  config   := h'.config.trans h.config
  pending  := h'.pending
  bitCount := by
    rw [h'.bitCount, h.bitCount, h.config, List.length_singleton, List.length_cons]
    omega
  last     := by
    simp only [h'.last, h.last, List.map_cons, List.map_nil, List.getLastD_cons, List.getLastD_nil]
  outside  := fun k hk => (h'.outside k (h.config ▸ hk)).trans (h.outside k hk)

/-- Edges that keep time count up to capacity, one by one (40_edge_sink.md R85). -/
theorem run_edges_counted {edges : List (Bool × Nat)} {s : State} {rest : List Input}
    (hp : s.pending = edgeInputs edges ++ rest) (hn : orderedFrom s.now (edgeInputs edges) = true)
    (hcount : s.bitCount ≤ s.config.maxBits) :
    ∃ t, run edges.length s = .next t ∧ Counted s t edges rest := by
  induction edges generalizing s with
  | nil => exact ⟨s, rfl, rfl, hp, (Nat.min_eq_left hcount).symm, rfl, fun _ _ => rfl⟩
  | cons e edges ih =>
    obtain ⟨hnow, hlater⟩ := (orderedFrom_edgeInputs_cons _ _ _).mp hn
    obtain ⟨u, hstep, htime, hu⟩ := step_edge_counted hp hnow hcount
    have hbound : u.bitCount ≤ u.config.maxBits := by
      rw [hu.bitCount, hu.config]
      exact Nat.min_le_right _ _
    obtain ⟨t, hrun, ht⟩ := ih hu.pending (htime ▸ hlater) hbound
    exact ⟨t, (run_succ_of_next hstep).trans hrun, hu.cons ht⟩

theorem lastTime_concat (edges : List (Bool × Nat)) (last : Bool × Nat) (start : Nat) :
    ((edges ++ [last]).map Prod.snd).getLastD start = last.2 := by
  simp

/-- Settles O14: a run of edges, of which the last is named. -/
theorem edgesCountUpToCapacity : Obligations.EdgesCountUpToCapacity := by
  intro s edges last rest hp hn hcount
  have hlen : (edges ++ [last]).length = edges.length + 1 := List.length_append
  obtain ⟨t, hrun, ht⟩ := run_edges_counted hp hn hcount
  have hbits := ht.bitCount
  rw [hlen] at hrun hbits
  exact ⟨t, hrun, ht.pending, hbits, ht.last.trans (lastTime_concat ..), ht.outside⟩

/-! ### Edges from an empty buffer, then a TAKE -/

/-- The earlier of events that keep time keep time. -/
theorem orderedFrom_of_append {start : Nat} {before after : List Input} (h : orderedFrom start (before ++ after) = true) :
    orderedFrom start before = true := by
  induction before generalizing start with
  | nil => rfl
  | cons inp before ih =>
    rw [List.cons_append, orderedFrom, Bool.and_eq_true] at h
    rw [orderedFrom, Bool.and_eq_true]
    exact ⟨h.1, ih h.2⟩

/-- A ready TAKE with room is observed with the frame's count and bytes that spell its value (42_field_decoder.md R131). -/
theorem State.Holds.step_take_spells {s : State} {f : List Bool} (h : s.Holds f) {m : BitVec 8} {time : Nat}
    {rest : List Input} (hp : s.pending = inputOf (.take m) time :: rest) (hn : s.now ≤ time) (hf : 0 < f.length)
    (hready : s.lastActivity + s.config.idleThreshold < time) (hm : f.length / 8 + 1 ≤ m.toNat) :
    ∃ u bytes, step s = .next u ∧
      (∃ o older, u.trace = o :: older ∧ o.event = .take m ∧ o.response = .frame f.length bytes) ∧
      frameValue f.length bytes = rawValueOf f := by
  have hpoll : s.pollValue time ≠ 0 := (h.pollValue_ne_zero_iff time).mpr ⟨hf, hready⟩
  rw [step_take hp hn, ← h.count, exec_take_of_ready m _ hpoll]
  refine ⟨_, s.snapshot (takeLength s.bitCount m), rfl, ⟨_, _, rfl, rfl, rfl⟩, ?_⟩
  rw [h.count]
  exact h.frameValue_snapshot hm

/-- Settles O33: the empty buffer holds the empty frame, to which the edges append their bits, and the TAKE is ready. -/
theorem edgesThenTakeSpellTheirValue : Obligations.EdgesThenTakeSpellTheirValue := by
  intro s edges last m time hempty hzero hp hn hroom hready hm
  have hlen : (edges ++ [last]).length = edges.length + 1 := List.length_append
  have hbits : ((edges ++ [last]).map Prod.fst).length = edges.length + 1 := by rw [List.length_map, hlen]
  obtain ⟨t, hrun, ht⟩ := (State.holds_nil hempty hzero).run_edges hp (orderedFrom_of_append (hp ▸ hn))
    (by rwa [hlen, List.length_nil, Nat.zero_add])
  have hnow : t.now = last.2 := ht.now.trans (lastTime_concat ..)
  have hlast : t.lastActivity = last.2 := ht.last.trans (lastTime_concat ..)
  obtain ⟨u, bytes, hstep, hobserved, hvalue⟩ := ht.holds.step_take_spells (m := m) ht.pending (by omega)
    (by rw [List.nil_append, hbits]; omega) (by rw [hlast, ht.config]; exact hready)
    (by rwa [List.nil_append, hbits])
  rw [List.nil_append, hbits] at hobserved hvalue
  rw [hlen] at hrun
  refine ⟨t, u, bytes, hrun, ht.holds, ?_, hobserved, hvalue⟩
  rw [run_add (k := 1) hrun, run_succ_of_next hstep, run_zero]

end Sys2Proof.Machine
end

section
/-! PROOFS. Where each edge goes (90_conflicts.md C6): what one more observation adds to the bits that have left the buffer, and from
it that every edge has either left it or is held. -/

namespace Sys2Proof.Machine

/-! ### The bits that have left the buffer -/

/-- The bits that are no longer held: handed out, lost to a short `maxBytes`, dropped at capacity, or discarded. -/
def goneBits (c : Config) (trace : List Observation) : Nat :=
  copiedBits trace + shortTakeBits trace + droppedBits c trace + discardedBits c trace

theorem State.accounted_iff (s : State) :
    s.Accounted ↔ edgeCount s.trace = goneBits s.config s.trace + s.bitCount := Iff.rfl

theorem Observation.copiedCount_le (o : Observation) : o.copiedCount ≤ o.reportedCount := by
  unfold Observation.copiedCount Observation.reportedCount
  split
  · exact Nat.min_le_left _ _
  · exact Nat.zero_le _

/-- Of an observed TAKE all reported bits leave, whether or not `maxBytes` let them be copied (41_frame_reader.md R105). -/
theorem goneBits_cons (c : Config) (o : Observation) (older : List Observation) :
    goneBits c (o :: older) = goneBits c older + (o.reportedCount +
      (if o.event.edgeBit.isSome ∧ c.maxBits ≤ (frameOf c older).length then 1 else 0) +
      (if o.event = .reset then (frameOf c older).length else 0)) := by
  have hcopied := o.copiedCount_le
  simp only [goneBits, copiedBits, shortTakeBits, droppedBits, discardedBits, List.map_cons, List.sum_cons]
  omega

theorem edgeCount_cons (o : Observation) (older : List Observation) :
    edgeCount (o :: older) = edgeCount older + if o.event.edgeBit.isSome then 1 else 0 :=
  List.countP_cons ..

/-! ### What each event does to the account -/

/-- An edge is held, or at capacity dropped. -/
theorem State.Accounted.edge {s : State} (h : s.Accounted) (hcount : s.bitCount = (frameOf s.config s.trace).length)
    (b : Bool) : ((s.edge b).respond (.edge b) .none).Accounted := by
  have hreported : ∀ ops, (Observation.mk (.edge b) s.now ops .none).reportedCount = 0 := by cases b <;> intro _ <;> rfl
  have hreset : Instr.edge b ≠ .reset := by cases b <;> nofun
  rw [State.accounted_iff] at h ⊢
  simp only [State.respond_trace, State.respond_config, State.respond_bitCount, State.edge_trace, State.edge_config,
    State.edge_now, State.edge_bitCount, goneBits_cons, edgeCount_cons, edgeBit_edge, Option.isSome_some, hreported,
    hreset, true_and, if_true, if_false, ← hcount]
  split_ifs <;> omega

/-- An event that is no edge takes as many bits out of the buffer as it reports or, a RESET, discards. -/
theorem State.Accounted.observe {s t : State} {o : Observation} (h : s.Accounted) (hconfig : t.config = s.config)
    (htrace : t.trace = o :: s.trace) (ho : o.event.edgeBit = none)
    (hcount : s.bitCount =
      o.reportedCount + (if o.event = .reset then (frameOf s.config s.trace).length else 0) + t.bitCount) :
    t.Accounted := by
  rw [State.accounted_iff] at h ⊢
  rw [htrace, hconfig, edgeCount_cons, goneBits_cons, ho]
  simp only [Option.isSome_none, Bool.false_eq_true, false_and, if_false]
  omega

theorem exec_keeps_accounted {i : Instr} {s t : State} (h : s.Accounted)
    (hcount : s.bitCount = (frameOf s.config s.trace).length) (he : exec i s = .next t) : t.Accounted := by
  rcases exec_cases he with ⟨b, rfl, rfl⟩ | ⟨rfl, rfl⟩ | ⟨m, rfl, -, rfl⟩ | ⟨m, rfl, -, rfl⟩ | ⟨rfl, rfl⟩ | ⟨rfl, rfl⟩
  · exact h.edge hcount b
  · exact h.observe rfl rfl rfl (Nat.zero_add _).symm
  · exact h.observe rfl rfl rfl (Nat.zero_add _).symm
  · exact h.observe rfl rfl rfl rfl
  · exact h.observe rfl rfl rfl (hcount.trans (Nat.zero_add _).symm)
  · exact h.observe rfl rfl rfl (Nat.zero_add _).symm

/-! ### Steps and reachable states -/

/-- Settles O52: sampling reads neither the count nor the observation, and the bits held are those of the observed frame. -/
theorem stepKeepsEveryEdgeAccountedFor : Obligations.StepKeepsEveryEdgeAccountedFor := by
  intro s t hinv hacc h
  rcases step_cases h with ⟨-, rfl⟩ | ⟨inp, rest, i, -, -, -, he⟩
  · exact hacc
  · have hsampled : (s.sample inp rest).Accounted := hacc
    exact exec_keeps_accounted hsampled hinv.holds.count he

theorem Reachable.accounted {c : Config} {s : State} (h : Reachable c s) : s.Accounted := by
  induction h with
  | powerOn draw => exact rfl
  | present s inp _ ih => exact ih
  | step s t hr hs ih =>
    obtain ⟨-, hinv⟩ := hr.inv
    exact stepKeepsEveryEdgeAccountedFor s t hinv ih hs

/-- Settles O20: power-on has seen no edge, and every step keeps the account. -/
theorem everyEdgeIsAccountedForOnce : Obligations.EveryEdgeIsAccountedForOnce := by
  intro c s h
  obtain ⟨rfl, -⟩ := h.inv
  exact h.accounted

end Sys2Proof.Machine
end

section
/-! PROOFS. FrameReader (41_frame_reader.md): what POLL, TAKE and RESET answer, the byte after the last full one, and what the consumer
finds between a successful TAKE and the next edge and while edges keep coming. -/

namespace Sys2Proof.Machine

/-! ### What each consumer event answers -/

theorem poll_answers (s : State) :
    ∃ t, exec .poll s = .next t ∧ Responds .poll (.count (s.pollValue s.now)) s t ∧ SameBlock s t :=
  ⟨_, exec_poll s, responds_self _ _ s, sameBlock_respond _ _ s⟩

/-- With no frame ready (60_exceptions.md R163). -/
theorem answers_of_not_ready {s : State} (m : BitVec 8) (h : s.pollValue s.now = 0) :
    (∃ t, exec (.take m) s = .next t ∧ Responds (.take m) (.frame 0 []) s t ∧ SameBlock s t) ∧
    (∃ t, exec .poll s = .next t ∧ Responds .poll (.count 0) s t ∧ SameBlock s t) :=
  ⟨⟨_, exec_take_of_not_ready m s h, responds_self _ _ s, sameBlock_respond _ _ s⟩, h ▸ poll_answers s⟩

theorem take_answers_of_ready {s : State} (m : BitVec 8) (h : s.pollValue s.now ≠ 0) :
    ∃ t, exec (.take m) s = .next t ∧
      Responds (.take m) (.frame s.bitCount (s.snapshot (takeLength s.bitCount m))) s t ∧ Cleared s t :=
  ⟨_, exec_take_of_ready m s h, responds_clearFrame _ _ s, cleared_clearFrame _ _ s⟩

theorem State.pollValue_ne_zero {s : State} {now : Nat} (hb : 0 < s.bitCount)
    (ht : s.lastActivity + s.config.idleThreshold < now) : s.pollValue now ≠ 0 := by
  rw [State.pollValue_of_ready s now hb ht]
  exact hb.ne'

/-- Settles O29: the clearing and the response are RESET's whole meaning. -/
theorem resetEventClearsTheBuffer : Obligations.ResetEventClearsTheBuffer := fun s =>
  ⟨_, exec_reset s, responds_clearFrame _ _ s, cleared_clearFrame _ _ s⟩

/-- Settles O23: PollValue in each of the two cases. -/
theorem pollRespondsTheCountExactlyWhenReady : Obligations.PollRespondsTheCountExactlyWhenReady := by
  intro s
  obtain ⟨t, he, hr, hsame⟩ := poll_answers s
  refine ⟨t, he, hsame, fun hb ht => ?_, fun hnot => ?_⟩
  · rwa [State.pollValue_of_ready s s.now hb ht] at hr
  · rwa [(State.pollValue_eq_zero_iff s s.now).mpr hnot] at hr

/-! ### A ready TAKE -/

/-- Settles O26: a ready TAKE returns `BufRead` at each index, which is 0x00 where there is no storage (20_memory.md R42). -/
theorem readyTakeReturnsTheFrameAndClears : Obligations.ReadyTakeReturnsTheFrameAndClears := by
  intro m s hb ht
  obtain ⟨t, he, hr, hcleared⟩ := take_answers_of_ready m (State.pollValue_ne_zero hb ht)
  refine ⟨t, _, he, hr, s.length_snapshot _, fun j hj => ?_, hcleared⟩
  rw [s.length_snapshot] at hj
  exact s.getElem?_snapshot hj

/-- A byte past the last bit of the frame packs to 0x00. -/
theorem packedByte_of_length_le {f : List Bool} {k : Nat} (h : f.length ≤ 8 * k) : packedByte f k = 0x00 := by
  rw [packedByte, List.drop_eq_nil_of_le h, List.take_nil, rawValueOf_nil]
  rfl

/-- Settles O27: the byte at index `floor(N/8)` lies past the frame, or is the partial byte of the held frame. -/
theorem lastByteIsZeroOrThePartialByte : Obligations.LastByteIsZeroOrThePartialByte := by
  intro m s f hf hpos ht hm
  have hlen : takeLength f.length m = f.length / 8 + 1 := Nat.min_eq_left hm
  have hready : s.pollValue s.now ≠ 0 := (hf.pollValue_ne_zero_iff s.now).mpr ⟨hpos, ht⟩
  obtain ⟨t, he, hr, -⟩ := take_answers_of_ready m hready
  rw [hf.count, hlen] at hr
  refine ⟨t, _, _, he, hr, s.length_snapshot _, s.getElem?_snapshot (Nat.lt_succ_self _), fun hmul => ?_,
    fun hpart => ?_⟩
  · rw [hf.bufRead]
    exact packedByte_of_length_le (by omega)
  · have hstorage : f.length / 8 < s.config.capBytes := by
      have hwithin := hf.within
      unfold Config.maxBits at hwithin
      omega
    rw [State.bufRead_of_lt hstorage]
    exact ⟨hf.small hstorage, hf.partly hstorage⟩

/-! ### Between a successful TAKE and the next edge -/

/-- Nothing is held, and no edge is among the presented events. -/
structure State.EmptyUntilEdge (s : State) : Prop where
  bitCount : s.bitCount = 0
  noEdge   : ∀ inp ∈ s.pending, ∀ i, decodeWord inp.word = .ok i → i.edgeBit = none

theorem exec_keeps_empty {i : Instr} {s t : State} (hi : i.edgeBit = none) (hs : s.bitCount = 0)
    (he : exec i s = .next t) : t.bitCount = 0 := by
  rcases exec_cases he with ⟨b, rfl, -⟩ | ⟨-, rfl⟩ | ⟨m, -, -, rfl⟩ | ⟨m, -, -, rfl⟩ | ⟨-, rfl⟩ | ⟨-, rfl⟩
  · simp at hi
  · exact hs
  · exact hs
  · rfl
  · rfl
  · exact hs

theorem step_keeps_emptyUntilEdge (s t : State) (h : s.EmptyUntilEdge) (hs : step s = .next t) : t.EmptyUntilEdge := by
  rcases step_cases hs with ⟨-, rfl⟩ | ⟨inp, rest, i, hp, hd, -, he⟩
  · exact h
  · have hnoEdge := h.noEdge
    rw [hp, List.forall_mem_cons] at hnoEdge
    obtain ⟨hfirst, hrest⟩ := hnoEdge
    obtain ⟨r, hr⟩ := exec_responds he
    exact ⟨exec_keeps_empty (s := s.sample inp rest) (hfirst i hd) h.bitCount he, hr.pending ▸ hrest⟩

/-- Settles O28: the TAKE left nothing held, and without an edge nothing is held later. -/
theorem takenFrameIsGoneUntilTheNextEdge : Obligations.TakenFrameIsGoneUntilTheNextEdge := by
  intro m m' s t u later k time hb ht he hlater hrun
  rw [exec_take_of_ready m s (State.pollValue_ne_zero hb ht)] at he
  cases he
  have hempty : u.EmptyUntilEdge := run_keeps step_keeps_emptyUntilEdge ⟨rfl, hlater⟩ hrun
  have hpoll : (u.withNow time).pollValue time = 0 := State.pollValue_of_empty hempty.bitCount time
  obtain ⟨⟨v, hv, hvr, hvsame⟩, w, hw, hwr, -⟩ := answers_of_not_ready m' hpoll
  exact ⟨⟨v, hv, hvr, ⟨hvsame.bytes, hvsame.bitCount, hvsame.lastActivity⟩⟩, w, hw, hwr⟩

/-! ### While edges keep coming -/

theorem Config.maxBits_pos_of_legal {c : Config} (h : c.legal = true) : 0 < c.maxBits := by
  simp only [Config.legal, Bool.and_eq_true, decide_eq_true_eq] at h
  unfold Config.maxBits
  omega

theorem edgeInputs_append (edges more : List (Bool × Nat)) :
    edgeInputs (edges ++ more) = edgeInputs edges ++ edgeInputs more :=
  List.map_append

/-- `LAST_ACTIVITY` in the middle of a run of edges from an empty buffer is the time of the edge just performed. -/
theorem lastActivity_after_edge {s t : State} {edges : List (Bool × Nat)} {rest : List Input} {j : Nat}
    (hempty : s.bitCount = 0) (hp : s.pending = edgeInputs edges ++ rest)
    (hn : orderedFrom s.now (edgeInputs edges) = true) (hj : j < edges.length) (hrun : run (j + 1) s = .next t) :
    t.config = s.config ∧ t.lastActivity = edges[j].2 := by
  have hsplit : edgeInputs edges = edgeInputs (edges.take (j + 1)) ++ edgeInputs (edges.drop (j + 1)) := by
    rw [← edgeInputs_append, List.take_append_drop]
  have hlen : (edges.take (j + 1)).length = j + 1 := List.length_take_of_le hj
  obtain ⟨u, hu, hcounted⟩ := run_edges_counted (hp.trans (by rw [hsplit, List.append_assoc]))
    (orderedFrom_of_append (hsplit ▸ hn)) (hempty ▸ Nat.zero_le _)
  rw [hlen, hrun] at hu
  cases hu
  refine ⟨hcounted.config, hcounted.last.trans ?_⟩
  rw [List.take_succ_eq_append_getElem hj, lastTime_concat]

/-- Before the next edge, or after the last until the threshold has passed, the block is not idle (41_frame_reader.md R111). -/
theorem not_idle_after_edge {s t : State} {edges : List (Bool × Nat)} {last : Bool × Nat} {rest : List Input}
    {j time : Nat} (hempty : s.bitCount = 0) (hp : s.pending = edgeInputs (edges ++ [last]) ++ rest)
    (hn : orderedFrom s.now (edgeInputs (edges ++ [last])) = true)
    (hgaps : ((edges ++ [last]).map Prod.snd).IsChain (fun a b => b ≤ a + s.config.idleThreshold))
    (hj : j ≤ edges.length) (hrun : run (j + 1) s = .next t)
    (hnext : ∀ e, (edges ++ [last])[j + 1]? = some e → time ≤ e.2)
    (hend : time ≤ last.2 + s.config.idleThreshold) :
    time ≤ t.lastActivity + t.config.idleThreshold := by
  have hlen : (edges ++ [last]).length = edges.length + 1 := List.length_append
  obtain ⟨hconfig, hlast⟩ := lastActivity_after_edge hempty hp hn (by omega) hrun
  rw [hlast, hconfig]
  rcases Nat.lt_or_eq_of_le hj with hlt | rfl
  · have hgap := List.isChain_iff_getElem.mp hgaps j (by simpa using hlt)
    rw [List.getElem_map, List.getElem_map] at hgap
    exact (hnext _ (List.getElem?_eq_getElem (by omega))).trans hgap
  · simpa using hend

/-- Settles O45: the block is not idle while edges keep coming, and edges from an empty buffer are the whole count. -/
theorem gapsWithinTheThresholdHoldTheFrame : Obligations.GapsWithinTheThresholdHoldTheFrame := by
  intro s edges last rest hlegal hempty hp hn hgaps
  have hlen : (edges ++ [last]).length = edges.length + 1 := List.length_append
  refine ⟨fun j t hj hrun m time _ hnext hend => ?_, ?_⟩
  · have hidle := not_idle_after_edge hempty hp hn hgaps hj hrun hnext hend
    have hpoll : (t.withNow time).pollValue time = 0 := (State.pollValue_eq_zero_iff _ time).mpr (.inr hidle)
    obtain ⟨⟨u, hu, hur, -⟩, v, hv, hvr, -⟩ := answers_of_not_ready m hpoll
    exact ⟨⟨v, hv, hvr⟩, u, hu, hur⟩
  · obtain ⟨t, hrun, ht⟩ := run_edges_counted hp hn (hempty ▸ Nat.zero_le _)
    have hbits := ht.bitCount
    have hlast : t.lastActivity = last.2 := ht.last.trans (lastTime_concat ..)
    rw [hempty, hlen, Nat.zero_add] at hbits
    rw [hlen] at hrun
    refine ⟨t, hrun, ht.pending, fun time htime => ?_⟩
    have hpos : 0 < t.bitCount := hbits ▸ Nat.lt_min.mpr ⟨Nat.succ_pos _, Config.maxBits_pos_of_legal hlegal⟩
    have hpoll : (t.withNow time).pollValue time = t.bitCount :=
      State.pollValue_of_ready (t.withNow time) time hpos (by simpa [hlast, ht.config] using htime)
    obtain ⟨u, hu, hur, -⟩ := poll_answers (t.withNow time)
    rw [State.withNow_now, hpoll, hbits] at hur
    exact ⟨u, hu, hur⟩

end Sys2Proof.Machine
end

section
/-! PROOFS. FieldDecoder (42_field_decoder.md): FrameValue on any bytes and on those a TAKE returns, which lengths DECODE recognizes,
and what it reads out of the raw value. -/

namespace Sys2Proof.Machine

/-! ### FrameValue on any bytes -/

theorem fullBytesValue_lt (bytes : List Byte) (q : Nat) : fullBytesValue bytes q < 2 ^ (8 * q) := by
  induction q with
  | zero => simp
  | succ q ih =>
    have hbyte := returnedByte_lt bytes q
    rw [fullBytesValue_succ, Nat.mul_succ, pow_add]
    omega

theorem frameValue_lt (n : Nat) (bytes : List Byte) : frameValue n bytes < 2 ^ n := by
  have hfull := fullBytesValue_lt bytes (n / 8)
  have hpart : returnedByte bytes (n / 8) % 2 ^ (n % 8) < 2 ^ (n % 8) := Nat.mod_lt _ (by positivity)
  calc frameValue n bytes
      = fullBytesValue bytes (n / 8) * 2 ^ (n % 8) + returnedByte bytes (n / 8) % 2 ^ (n % 8) := frameValue_eq n bytes
    _ < (fullBytesValue bytes (n / 8) + 1) * 2 ^ (n % 8) := by rw [Nat.succ_mul]; omega
    _ ≤ 2 ^ (8 * (n / 8)) * 2 ^ (n % 8) := Nat.mul_le_mul_right _ hfull
    _ = 2 ^ n := by rw [← pow_add, Nat.div_add_mod]

theorem fullBytesValue_congr {bytes other : List Byte} {q : Nat}
    (h : ∀ j, j < q → returnedByte bytes j = returnedByte other j) : fullBytesValue bytes q = fullBytesValue other q := by
  induction q with
  | zero => rfl
  | succ q ih => rw [fullBytesValue_succ, fullBytesValue_succ, ih fun j hj => h j (by omega), h q (Nat.lt_succ_self q)]

/-- FrameValue reads only the bytes in which the frame has a bit. -/
theorem frameValue_congr {n : Nat} {bytes other : List Byte}
    (h : ∀ j, 8 * j < n → returnedByte bytes j = returnedByte other j) : frameValue n bytes = frameValue n other := by
  rw [frameValue_eq, frameValue_eq, fullBytesValue_congr fun j hj => h j (by omega)]
  by_cases hpart : n % 8 = 0
  · rw [hpart, pow_zero, Nat.mod_one, Nat.mod_one]
  · rw [h (n / 8) (by omega)]

theorem returnedByte_append {bytes : List Byte} {j : Nat} (h : j < bytes.length) (extra : List Byte) :
    returnedByte (bytes ++ extra) j = returnedByte bytes j := by
  rw [returnedByte, List.getD_append _ _ _ _ h, returnedByte]

/-- Settles O31: the full bytes are below `2^(8q)`, and every byte with a bit of the frame lies within the bytes that cover it. -/
theorem frameValueIsBelowItsLengthAndIgnoresTheRest : Obligations.FrameValueIsBelowItsLengthAndIgnoresTheRest :=
  fun n bytes extra =>
    ⟨frameValue_lt n bytes, fun hcover => frameValue_congr fun _ hj => returnedByte_append (by omega) extra⟩

/-! ### FrameValue of the bytes a TAKE returns -/

/-- The frame with its bits outside the first `len` bytes read as 0 (42_field_decoder.md R131). -/
def cutAfterBytes (len : Nat) (f : List Bool) : List Bool := f.mapIdx fun i b => b && decide (i < 8 * len)

@[simp] theorem length_cutAfterBytes (len : Nat) (f : List Bool) : (cutAfterBytes len f).length = f.length :=
  List.length_mapIdx

theorem frameBit_cutAfterBytes (len : Nat) (f : List Bool) (i : Nat) :
    frameBit (cutAfterBytes len f) i = (frameBit f i && decide (i < 8 * len)) := by
  cases h : f[i]? <;> simp [frameBit, cutAfterBytes, List.getD_eq_getElem?_getD, h]

/-- Byte by byte, the cut keeps the first `len` bytes and makes the others 0x00. -/
theorem rawValueOf_chunk_cutAfterBytes (len : Nat) (f : List Bool) (k : Nat) :
    rawValueOf (chunk (cutAfterBytes len f) k) = if k < len then rawValueOf (chunk f k) else 0 := by
  have hlen : (chunk (cutAfterBytes len f) k).length = (chunk f k).length := by simp [length_chunk]
  have hle : (chunk f k).length ≤ 8 := length_chunk f k ▸ Nat.min_le_left ..
  have hbit : ∀ j < (chunk f k).length,
      frameBit (chunk (cutAfterBytes len f) k) j = (frameBit (chunk f k) j && decide (k < len)) := by
    intro j hj
    have hiff : 8 * k + j < 8 * len ↔ k < len := by omega
    rw [frameBit_chunk _ k j (by omega), frameBit_chunk _ k j (by omega), frameBit_cutAfterBytes, decide_eq_decide.mpr hiff]
  rw [rawValueOf, hlen]
  split_ifs with hk
  · exact Finset.sum_congr rfl fun j hj => by rw [hbit j (Finset.mem_range.mp hj), decide_eq_true hk, Bool.and_true]
  · exact Finset.sum_eq_zero fun j hj => by
      rw [hbit j (Finset.mem_range.mp hj), decide_eq_false hk, Bool.and_false, Bool.toNat_false, Nat.zero_mul]

theorem packedByte_toNat (f : List Bool) (k : Nat) : (packedByte f k).toNat = rawValueOf (chunk f k) := by
  have hlt : rawValueOf (chunk f k) < 2 ^ 8 :=
    (rawValueOf_lt _).trans_le (Nat.pow_le_pow_right (by norm_num) (length_chunk f k ▸ Nat.min_le_left ..))
  exact Nat.mod_eq_of_lt hlt

/-- A byte of a held frame's snapshot is the value of its bits; a byte not returned reads as 0x00 (42_field_decoder.md R130). -/
theorem State.Holds.returnedByte_snapshot {s : State} {f : List Bool} (h : s.Holds f) (len j : Nat) :
    returnedByte (s.snapshot len) j = if j < len then rawValueOf (chunk f j) else 0 := by
  rw [h.snapshot, returnedByte, List.getD_eq_getElem?_getD]
  split_ifs with hj
  · simp [hj, packedByte_toNat]
  · simp [hj]

/-- Whatever room a TAKE of a held frame is given, the bits of the bytes it does not return read as 0 (42_field_decoder.md R131). -/
theorem State.Holds.frameValue_snapshot_cut {s : State} {f : List Bool} (h : s.Holds f) (m : BitVec 8) :
    frameValue f.length (s.snapshot (takeLength f.length m)) = rawValueOf (cutAfterBytes m.toNat f) := by
  rw [← frameValue_of_chunks (cutAfterBytes m.toNat f), length_cutAfterBytes]
  intro j hj
  rw [length_cutAfterBytes] at hj
  have hiff : j < takeLength f.length m ↔ j < m.toNat := by
    unfold takeLength neededBytes maxBytesValue
    omega
  rw [h.returnedByte_snapshot, rawValueOf_chunk_cutAfterBytes, if_congr hiff rfl rfl]

/-- Settles O32: a ready TAKE returns a snapshot of the held frame, whose FrameValue is that of the frame cut to the bytes returned. -/
theorem frameValueOfTakenBytesIsTheRawValue : Obligations.FrameValueOfTakenBytesIsTheRawValue := by
  intro m s f hf hpos ht
  obtain ⟨t, he, hr, -⟩ := take_answers_of_ready m ((hf.pollValue_ne_zero_iff s.now).mpr ⟨hpos, ht⟩)
  rw [hf.count] at hr
  exact ⟨t, _, he, hr, hf.frameValue_snapshot_cut m, hf.frameValue_snapshot⟩

/-! ### DECODE by the entry its length finds -/

theorem decode_answers (s : State) :
    ∃ t, exec .decode s = .next t ∧ SameBlock s t ∧
      Responds .decode (.decoded (decodeFields s.config s.decN s.decRaw)) s t :=
  ⟨_, exec_decode s, sameBlock_respond _ _ s, responds_self _ _ s⟩

theorem decodeFields_of_formatOf {c : Config} {e : Format} {n : BitVec 9} (h : formatOf c n.toNat = some e) (raw : Nat) :
    decodeFields c n raw =
      { bitCount := n, rawValue := raw, facilityCode := some (facilityOf e raw), cardCode := some (cardOf e raw),
        combinedValue := some (combinedOf c (facilityOf e raw) (cardOf e raw)) } := by
  rw [decodeFields, h]

theorem decodeFields_of_formatOf_none {c : Config} {n : BitVec 9} (h : formatOf c n.toNat = none) (raw : Nat) :
    decodeFields c n raw =
      { bitCount := n, rawValue := raw, facilityCode := none, cardCode := none, combinedValue := none } := by
  rw [decodeFields, h]

/-- The operands pass through whether or not the length is recognized (42_field_decoder.md R140). -/
theorem decodeFields_operands (c : Config) (n : BitVec 9) (raw : Nat) :
    (decodeFields c n raw).rawValue = raw ∧ (decodeFields c n raw).bitCount = n := by
  cases h : formatOf c n.toNat with
  | none => simp [decodeFields_of_formatOf_none h]
  | some e => simp [decodeFields_of_formatOf h]

/-- Each field is present exactly when the length finds an entry (42_field_decoder.md R132, R136). -/
theorem decodeFields_isSome (c : Config) (n : BitVec 9) (raw : Nat) :
    (decodeFields c n raw).facilityCode.isSome = (formatOf c n.toNat).isSome ∧
    (decodeFields c n raw).cardCode.isSome = (formatOf c n.toNat).isSome ∧
    (decodeFields c n raw).combinedValue.isSome = (formatOf c n.toNat).isSome := by
  cases h : formatOf c n.toNat with
  | none => simp [decodeFields_of_formatOf_none h]
  | some e => simp [decodeFields_of_formatOf h]

/-- Settles O43: DECODE responds the decoder's result, which carries both operands. -/
theorem decodePassesItsOperandsThrough : Obligations.DecodePassesItsOperandsThrough := by
  intro s
  obtain ⟨t, he, -, hr⟩ := decode_answers s
  exact ⟨t, _, he, hr, decodeFields_operands ..⟩

/-- Settles O44: the decoder reads the parameters and the two operands and nothing else. -/
theorem decodeDependsOnItsOperandsAlone : Obligations.DecodeDependsOnItsOperandsAlone := by
  intro s s' hc hn hraw
  obtain ⟨t, he, -, hr⟩ := decode_answers s
  obtain ⟨t', he', -, hr'⟩ := decode_answers s'
  rw [← hc, ← hn, ← hraw] at hr'
  exact ⟨t, t', _, he, he', hr, hr'⟩

/-- Settles O36: in a legal table the length finds the entry, and the combined value is exact where it fits. -/
theorem decodeOfARecognizedLengthExtractsItsFields : Obligations.DecodeOfARecognizedLengthExtractsItsFields := by
  intro s e hlegal he hn
  obtain ⟨t, hexec, hsame, hr⟩ := decode_answers s
  rw [decodeFields_of_formatOf (formatOf_eq hlegal he hn)] at hr
  exact ⟨t, _, hexec, hsame, hr, combinedOf_toNat⟩

/-- Settles O38: the fields are present when the length finds an entry, and it finds one exactly when the table has it. -/
theorem recognizedLengthsAreThoseOfTheTable : Obligations.RecognizedLengthsAreThoseOfTheTable := by
  refine ⟨fun c n raw => ?_, fun n raw => ?_, fun c e e' hlegal he he' hlen => ?_⟩
  · obtain ⟨hfac, hcard, hcomb⟩ := decodeFields_isSome c n raw
    rw [hfac, hcard, hcomb]
    exact ⟨formatOf_isSome_iff .., formatOf_isSome_iff .., formatOf_isSome_iff ..⟩
  · rw [(decodeFields_isSome ..).1, formatOf_isSome_iff]
    simp only [Config.default, format34, format26, List.mem_cons, List.not_mem_nil, or_false, exists_eq_or_imp,
      exists_eq_left]
    omega
  · exact Option.some.inj ((formatOf_eq hlegal he hlen).symm.trans (formatOf_eq hlegal he' rfl))

/-! ### The combined value and its two fields -/

theorem facilityOf_le (e : Format) (raw : Nat) : facilityOf e raw ≤ e.facMask := Nat.and_le_right

theorem cardOf_le (e : Format) (raw : Nat) : cardOf e raw ≤ e.cardMask := Nat.and_le_right

/-- Settles O40: the combined value is exact, and the card code is a remainder by `COMBINE_MULT`. -/
theorem combinedValueGivesItsFieldsBack : Obligations.CombinedValueGivesItsFieldsBack := by
  refine ⟨fun c e n raw hlegal he hn hcard hfits => ?_, by decide⟩
  have hcardOf : cardOf e raw < c.combineMult := (cardOf_le e raw).trans_lt hcard
  have hexact := combinedOf_toNat (c := c) (fac := facilityOf e raw) (card := cardOf e raw) <|
    (Nat.add_le_add (Nat.mul_le_mul_right _ (facilityOf_le e raw)) (cardOf_le e raw)).trans_lt hfits
  rw [decodeFields_of_formatOf (formatOf_eq hlegal he hn)]
  refine ⟨_, rfl, ?_, ?_⟩
  · rw [hexact, Nat.mul_add_mod', Nat.mod_eq_of_lt hcardOf]
  · rw [hexact, Nat.add_comm, Nat.add_mul_div_right _ _ (by omega), Nat.div_eq_of_lt hcardOf, Nat.zero_add]

/-! ### Ranges of bits, and the default formats -/

/-- The bits of a range fix its value. -/
theorem bitRange_eq_of_testBit_eq {v w low len : Nat}
    (h : ∀ j, low ≤ j → j < low + len → v.testBit j = w.testBit j) : v / 2 ^ low % 2 ^ len = w / 2 ^ low % 2 ^ len := by
  apply Nat.eq_of_testBit_eq
  intro i
  rw [Nat.testBit_mod_two_pow, Nat.testBit_mod_two_pow, Nat.testBit_div_two_pow, Nat.testBit_div_two_pow]
  by_cases hi : i < len
  · rw [h (i + low) (by omega) (by omega)]
  · rw [decide_eq_false hi, Bool.false_and, Bool.false_and]

/-- The bits of a frame from `skip` on, `len` of them with `low` after them, are a range of the bits of its value. -/
theorem rawValueOf_bitRange {f : List Bool} {skip len low : Nat} (h : f.length = skip + len + low) :
    rawValueOf f / 2 ^ low % 2 ^ len = rawValueOf ((f.drop skip).take len) := by
  have hlen : ((f.drop skip).take len).length = len := by simp; omega
  apply eq_rawValueOf
  · rw [hlen]
    exact Nat.mod_lt _ (by positivity)
  · intro j hj
    rw [hlen] at hj ⊢
    have hindex : len - 1 - j + low = f.length - 1 - (skip + j) := by omega
    have hbit : frameBit ((f.drop skip).take len) j = frameBit f (skip + j) := by
      simp [frameBit, List.getD_eq_getElem?_getD, hj, List.getElem?_drop]
    rw [Nat.testBit_mod_two_pow, decide_eq_true (by omega), Bool.true_and, Nat.testBit_div_two_pow, hindex,
      rawValueOf_testBit f _ (by omega), hbit]

/-- The default formats take the facility code from the bits after the first of a frame and the card code from the 16 bits after
those, leaving the last out (42_field_decoder.md R134, R135). -/
theorem decodeFields_default_of_frame {n facBits : Nat} (hn : (n = 26 ∧ facBits = 8) ∨ (n = 34 ∧ facBits = 16))
    {f : List Bool} (hf : f.length = n) :
    (decodeFields Config.default (BitVec.ofNat 9 n) (rawValueOf f)).facilityCode =
      some (rawValueOf ((f.drop 1).take facBits)) ∧
    (decodeFields Config.default (BitVec.ofNat 9 n) (rawValueOf f)).cardCode =
      some (rawValueOf ((f.drop (facBits + 1)).take 16)) := by
  rw [decodeFields_default hn, ← rawValueOf_bitRange (low := 17) (by omega), ← rawValueOf_bitRange (low := 1) (by omega),
    pow_one]
  exact ⟨rfl, rfl⟩

/-- Settles O39: the entry of each length as it stands in the table, then as ranges of `raw`, then as bits of a frame. -/
theorem defaultFormatsReadTheirBitRanges : Obligations.DefaultFormatsReadTheirBitRanges := by
  have h34 : formatOf Config.default (34 : BitVec 9).toNat = some format34 := rfl
  have h26 : formatOf Config.default (26 : BitVec 9).toNat = some format26 := rfl
  refine ⟨fun raw => ?_, fun raw => ?_, fun f hf => ?_, fun f hf => ?_⟩
  · rw [decodeFields_of_formatOf h34, decodeFields_of_formatOf h26]
    exact ⟨rfl, rfl, rfl, rfl⟩
  · have ranges34 : decodeFields Config.default 34 raw = _ := decodeFields_default (.inr ⟨rfl, rfl⟩) raw
    have ranges26 : decodeFields Config.default 26 raw = _ := decodeFields_default (.inl ⟨rfl, rfl⟩) raw
    rw [ranges34, ranges26]
    exact ⟨rfl, rfl, rfl, rfl⟩
  · exact decodeFields_default_of_frame (.inr ⟨rfl, rfl⟩) hf
  · exact decodeFields_default_of_frame (.inl ⟨rfl, rfl⟩) hf

/-- Settles O42: the two codes are ranges of bits within `n-2 : 1`, and the combined value is theirs. -/
theorem endBitsReachNoField : Obligations.EndBitsReachNoField := by
  intro n raw raw' hn hbits
  obtain ⟨facBits, hformat⟩ :
      ∃ facBits, (n.toNat = 26 ∧ facBits = 8) ∨ (n.toNat = 34 ∧ facBits = 16) := by
    rcases hn with h | h
    · exact ⟨8, .inl ⟨h, rfl⟩⟩
    · exact ⟨16, .inr ⟨h, rfl⟩⟩
  have hfac : raw / 2 ^ 17 % 2 ^ facBits = raw' / 2 ^ 17 % 2 ^ facBits :=
    bitRange_eq_of_testBit_eq fun j _ _ => hbits j (by omega) (by omega)
  have hcard : raw / 2 ^ 1 % 2 ^ 16 = raw' / 2 ^ 1 % 2 ^ 16 :=
    bitRange_eq_of_testBit_eq fun j _ _ => hbits j (by omega) (by omega)
  rw [pow_one] at hcard
  have hdecode := decodeFields_default hformat
  rw [BitVec.ofNat_toNat, BitVec.setWidth_eq] at hdecode
  rw [hdecode, hdecode, hfac, hcard]
  exact ⟨rfl, rfl, rfl⟩

end Sys2Proof.Machine
end

section
/-! PROOFS. What stands in for exceptions (60_exceptions.md): every event answers a next state, with no frame ready and with a bit count
of no entry too, and the one thing that ends a run by its word, a refusal, is final. -/

namespace Sys2Proof.Machine

/-- A run that reaches a state whose step is refused answers that refusal at every greater length (60_exceptions.md R164). -/
theorem run_past_refused {j : Nat} {s₀ s : State} {r : Refusal} (hrun : run j s₀ = .next s) (hstep : step s = .refused r)
    (k : Nat) : run (j + (k + 1)) s₀ = .refused r := by
  rw [run_add hrun, run_succ_of_refused hstep]

/-- Settles O25: in both cases PollValue is 0, and that is all TAKE and POLL ask of the block. -/
theorem noFrameReadyIsAZeroLengthResult : Obligations.NoFrameReadyIsAZeroLengthResult := fun m s hnot =>
  answers_of_not_ready m ((State.pollValue_eq_zero_iff s s.now).mpr hnot)

/-- Settles O37: the length finds no entry, so the decoder leaves the three fields absent. -/
theorem decodeOfAnUnrecognizedLengthIsRawOnly : Obligations.DecodeOfAnUnrecognizedLengthIsRawOnly := by
  intro s hnone
  obtain ⟨t, hexec, hsame, hr⟩ := decode_answers s
  rw [decodeFields_of_formatOf_none ((formatOf_eq_none_iff _ _).mpr hnone)] at hr
  exact ⟨t, hexec, hsame, hr⟩

/-- Settles O6: the run up to the illegal word goes on with its refused step, which no later step follows. -/
theorem refusalIsNeverCleared : Obligations.RefusalIsNeverCleared := fun _ _ _ _ _ _ k hrun hp hd =>
  run_past_refused hrun (step_of_illegal hp hd) k

/-- Settles O10: `exec_answers_next`, the case split over the six events. -/
theorem noEventRaisesAnException : Obligations.NoEventRaisesAnException := exec_answers_next

end Sys2Proof.Machine
end

section
/-! PROOFS. Reset and hazards (70_reset_and_hazards.md): how large a combined value gets at default parameters, and what an edge on a
frame not yet taken does to the next POLL. -/

namespace Sys2Proof.Machine

/-! ### The largest combined value -/

/-- Both codes at their masks bound the exact combined value. -/
theorem exactCombined_le (c : Config) (e : Format) (raw : Nat) :
    facilityOf e raw * c.combineMult + cardOf e raw ≤ e.facMask * c.combineMult + e.cardMask :=
  Nat.add_le_add (Nat.mul_le_mul_right _ (facilityOf_le e raw)) (cardOf_le e raw)

/-- A combined value that is present comes from an entry of the table (42_field_decoder.md R132, R136). -/
theorem exists_format_of_combinedValue {c : Config} {n : BitVec 9} {raw : Nat} {comb : BitVec 64}
    (h : (decodeFields c n raw).combinedValue = some comb) :
    ∃ e ∈ c.formats, combinedOf c (facilityOf e raw) (cardOf e raw) = comb := by
  cases hfind : formatOf c n.toNat with
  | none =>
    rw [decodeFields_of_formatOf_none hfind] at h
    cases h
  | some e =>
    rw [decodeFields_of_formatOf hfind] at h
    exact ⟨e, List.mem_of_find?_eq_some hfind, Option.some.inj h⟩

/-- With every entry's masks within a bound that fits 64 bits, so is every combined value. -/
theorem combinedValue_le {c : Config} {bound : Nat} (hfits : bound < 2 ^ 64)
    (hmasks : ∀ e ∈ c.formats, e.facMask * c.combineMult + e.cardMask ≤ bound)
    {n : BitVec 9} {raw : Nat} {comb : BitVec 64} (h : (decodeFields c n raw).combinedValue = some comb) :
    comb.toNat ≤ bound := by
  obtain ⟨e, he, rfl⟩ := exists_format_of_combinedValue h
  have hle := (exactCombined_le c e raw).trans (hmasks e he)
  rwa [combinedOf_toNat (hle.trans_lt hfits)]

/-- Settles O41: the masks of both default entries are within the bound, and the 34-bit value of ones fills those of its entry. -/
theorem defaultCombinedValueIsAtMost6553565535 : Obligations.DefaultCombinedValueIsAtMost6553565535 := by
  refine ⟨fun n raw comb => combinedValue_le (by norm_num) (by decide), ?_⟩
  exact congrArg DecodedEvent.combinedValue (decodeFields_default (n := 34) (.inr ⟨rfl, rfl⟩) 0x3FFFFFFFF)

/-! ### An edge on a frame not yet taken -/

/-- Below capacity PollValue after an edge: silence counts from that edge, and its bit is among those held (40_edge_sink.md R81,
41_frame_reader.md R100). -/
theorem State.pollValue_edge {s : State} (hroom : s.bitCount < s.config.maxBits) (b : Bool) (time : Nat) :
    (s.edge b).pollValue time = if s.now + s.config.idleThreshold < time then s.bitCount + 1 else 0 := by
  rw [State.pollValue_eq, State.edge_bitCount, if_pos hroom, State.edge_lastActivity, State.edge_config]
  simp only [Nat.zero_lt_succ, true_and]

/-- Settles O47: POLL responds PollValue, and neither the edge's response nor the time that passes changes what it reads. -/
theorem lateConsumerMergesFrames : Obligations.LateConsumerMergesFrames := by
  intro s b hroom
  refine ⟨_, exec_edge b s, fun time _ => ?_⟩
  obtain ⟨u, hpoll, hr, -⟩ := poll_answers (((s.edge b).respond (.edge b) .none).withNow time)
  have hvalue : (((s.edge b).respond (.edge b) .none).withNow time).pollValue time =
      if s.now + s.config.idleThreshold < time then s.bitCount + 1 else 0 := State.pollValue_edge hroom b time
  rw [State.withNow_now, hvalue] at hr
  refine ⟨u, hpoll, fun hwithin => ?_, fun hpast => ?_⟩
  · rwa [if_neg hwithin.not_gt] at hr
  · rwa [if_pos hpast] at hr

end Sys2Proof.Machine
end
